-- ==== Sys2Proof/Word.lean ====
section
/-! DEFINITION. The word types of CORE (spec/00_scope.md R5, R7): every value is unsigned; bit 0 is the least
significant bit. -/

namespace Sys2Proof

/-- R7: a byte is an unsigned integer in `0 .. 255`. -/
abbrev Byte := BitVec 8

/-- R5, R7: a word is an unsigned 32-bit integer. -/
abbrev Word := BitVec 32

/-- R5, R28, R29: the 64-bit registers (`LEN`, `BLK`, `NBLK`) and the argument of a host command. -/
abbrev Word64 := BitVec 64

/-- R91: a host command word has 80 bits. -/
abbrev CommandWord := BitVec 80

/-- R93: a response word has 12 bits. -/
abbrev Response := BitVec 12

end Sys2Proof
end

