-- ==== Sys2Proof/Config.lean ====
section
/-! DEFINITION. The two parameters the spec leaves open (spec/00_scope.md R6), and the free values: what padding holds
where the spec states no value of it, in states no run reaches, and an argument a host program cannot issue. A free
value has no body, so nothing can be proved of it. -/

namespace Sys2Proof

/-- R6: `MSG_CAP`, the capacity in bytes of message memory, is a natural number with `0 <= MSG_CAP <= 2^61 - 1`.
The bound is in the type; the value stands in the state (`Machine.State.msgCap`, notes/assumptions/2.md), so every
statement about a state is a statement about every capacity. -/
abbrev MsgCap := Fin (2 ^ 61)

/-- R6: the largest capacity, `2^61 - 1`, as a number. -/
def msgCapLimit : Nat := 2 ^ 61 - 1

/-- R6: `NCORES`, the number of instances, is a natural number `>= 1`. -/
def ncoresLeast : Nat := 1

/-- R6: the default number of instances. -/
def ncoresDefault : Nat := 1

/-- R125, U3: the length field of a message of `len` bytes with `2^64 <= 8 * len`. The spec does not state it and says
not to reduce the bit length modulo `2^64`. A FREE VALUE, DESIGN CHOICE (notes/assumptions/19.md), safe. -/
opaque Config.unstatedLengthField : (len : Nat) → Word64

/-- R121: byte `i` of the padded message where `64 * n <= i`, above the last of its `n` blocks. The spec gives the
padded message no such byte. A FREE VALUE, DESIGN CHOICE (notes/assumptions/20.md), safe. -/
opaque Config.unstatedPaddedByte : (len n i : Nat) → Byte

/-- R99, U3: the argument of a command of a pseudo-instruction where it is a number `n` with `2^64 <= n`: no 64-bit
argument is that number, and the spec gives no expansion. A FREE VALUE, DESIGN CHOICE (notes/assumptions/22.md), safe. -/
opaque Config.unstatedArgument : (n : Nat) → Word64

end Sys2Proof
end

