-- ==== Sys2Proof/Syntax.lean ====
section
/-! DEFINITION. The two instruction sets of CORE (spec/30_encoding.md R90): five host commands and the ten phases
(eight micro-operations and the two rest phases), one constructor for each row of spec/opcode_table.json. -/

namespace Sys2Proof

/-- R26, R94: the ten values of the sequencer register `PHASE`. The codes `1010 .. 1111` have no value here (R96, U6). -/
inductive Phase where
  | idle | init | pad | wcopy | expand | ldwv | round | ffwd | render | done
  deriving DecidableEq, Repr

/-- R90: the instructions of both agents. The host commands carry the operands of R91 and R92; a must-be-zero field is
no operand. The micro-operations carry none: their operands are registers. -/
inductive Instr where
  /-- R226: SETLEN `n`. -/
  | setlen (n : Word64)
  /-- R227: WRMSG `addr, byte`. -/
  | wrmsg (addr : Word64) (byte : Byte)
  /-- R228: START. -/
  | start
  /-- R229: RDSTAT. -/
  | rdstat
  /-- R230: RDDIG `i`. -/
  | rddig (i : Word64)
  /-- R207: the rest phase after reset. -/
  | idle
  /-- R123: start of a digest computation. -/
  | init
  /-- R124: block `BLK` of the padded message into `B`. -/
  | pad
  /-- R142: the block into `W[0..15]`. -/
  | wcopy
  /-- R143: schedule word `W[J]`. -/
  | expand
  /-- R164: the hash state into the working variables. -/
  | ldwv
  /-- R165: round `J`. -/
  | round
  /-- R166: feed-forward and the block-loop branch. -/
  | ffwd
  /-- R192: the digest string. -/
  | render
  /-- R208: the rest phase after RENDER. -/
  | done
  deriving DecidableEq, Repr

/-- R91, R94: what selects an instruction: an 80-bit command word at the port, or a 4-bit phase code. -/
inductive Encoding where
  | command (w : CommandWord)
  | phase (code : BitVec 4)
  deriving DecidableEq, Repr

/-- R91: the fields of a command word, before any check. -/
structure RawCommand where
  op : Byte
  data : Byte
  arg : Word64
  deriving DecidableEq, Repr

end Sys2Proof
end

