-- ==== Sys2Proof/WellFormed.lean ====
section
/-! DEFINITION. What is well formed: a command word (spec/30_encoding.md R91, R96), a phase code (R94, R96) and the
two parameters (spec/00_scope.md R6). A term of `Instr` holds legal operands only, by its types: every value of an
operand is legal as syntax (R92: range checks are made on the value after decoding). -/

namespace Sys2Proof

/-- R91: one row of the match and mask table. A word `c` selects the row when `c and mask = bits`. -/
structure CommandRow where
  mnemonic : String
  bits : CommandWord
  mask : CommandWord
  deriving DecidableEq, Repr

/-- R91: the match and mask table, transcribed. -/
def commandRows : List CommandRow :=
  [ ⟨"SETLEN", 0x01000000000000000000#80, 0xFFFF0000000000000000#80⟩,
    ⟨"WRMSG",  0x02000000000000000000#80, 0xFF000000000000000000#80⟩,
    ⟨"START",  0x03000000000000000000#80, 0xFFFFFFFFFFFFFFFFFFFF#80⟩,
    ⟨"RDSTAT", 0x04000000000000000000#80, 0xFFFFFFFFFFFFFFFFFFFF#80⟩,
    ⟨"RDDIG",  0x05000000000000000000#80, 0xFFFF0000000000000000#80⟩ ]

/-- R91: the word selects the row. -/
def CommandRow.selects (r : CommandRow) (w : CommandWord) : Bool :=
  w &&& r.mask == r.bits

/-- R96: a command word is legal exactly when it matches a row of R91. -/
def commandWellFormed (w : CommandWord) : Bool :=
  commandRows.any (·.selects w)

/-- R94, R96: the codes `1010 .. 1111` select nothing. -/
def phaseCodeWellFormed (code : BitVec 4) : Bool :=
  decide (code.toNat < 10)

/-- Either kind of encoding. -/
def Encoding.wellFormed : Encoding → Bool
  | .command w => commandWellFormed w
  | .phase code => phaseCodeWellFormed code

/-- R6: the ranges of the two parameters. -/
def parametersWellFormed (msgCap ncores : Nat) : Bool :=
  decide (msgCap ≤ msgCapLimit) && decide (ncoresLeast ≤ ncores)

end Sys2Proof
end

