-- ==== Sys2Proof/Decode.lean ====
section
/-! DEFINITION. The decoder and the encoder of host command words (spec/30_encoding.md R91, R92, R96, R97) and of
phase codes (R94), and the host's view of both, `decodeTableWord`. -/

namespace Sys2Proof

/-- Why an encoding selects no instruction (R96). -/
inductive DecodeError where
  /-- R96: opcode `0x00` or `0x06 .. 0xFF`. -/
  | reservedOpcode (op : Byte)
  /-- R96: a must-be-zero field of SETLEN, START, RDSTAT or RDDIG is not zero. -/
  | mustBeZero (op : Byte)
  /-- R96: phase codes `1010 .. 1111`. -/
  | unreachablePhase (code : BitVec 4)
  deriving DecidableEq, Repr

/-- R91: the three fields of a command word, `op = [79:72]`, `data = [71:64]`, `arg = [63:0]`. -/
def splitCommand (w : CommandWord) : RawCommand :=
  { op := w.extractLsb' 72 8, data := w.extractLsb' 64 8, arg := w.extractLsb' 0 64 }

/-- R91: the command word with these fields. -/
def joinCommand (c : RawCommand) : CommandWord :=
  (c.op ++ c.data) ++ c.arg

/-- R91, R97: pick the row by `op`, then look at the must-be-zero fields. -/
def decodeRaw (c : RawCommand) : Except DecodeError Instr :=
  if c.op = 0x01#8 then
    if c.data = 0x00#8 then .ok (.setlen c.arg) else .error (.mustBeZero c.op)
  else if c.op = 0x02#8 then
    .ok (.wrmsg c.arg c.data)
  else if c.op = 0x03#8 then
    if c.data = 0x00#8 ∧ c.arg = 0#64 then .ok .start else .error (.mustBeZero c.op)
  else if c.op = 0x04#8 then
    if c.data = 0x00#8 ∧ c.arg = 0#64 then .ok .rdstat else .error (.mustBeZero c.op)
  else if c.op = 0x05#8 then
    if c.data = 0x00#8 then .ok (.rddig c.arg) else .error (.mustBeZero c.op)
  else
    .error (.reservedOpcode c.op)

/-- R91: the decoder of a host command word, total on all `2^80` words. -/
def decodeCommand (w : CommandWord) : Except DecodeError Instr :=
  decodeRaw (splitCommand w)

/-- R94: the code of a phase. -/
def Phase.code : Phase → BitVec 4
  | .idle => 0b0000#4
  | .init => 0b0001#4
  | .pad => 0b0010#4
  | .wcopy => 0b0011#4
  | .expand => 0b0100#4
  | .ldwv => 0b0101#4
  | .round => 0b0110#4
  | .ffwd => 0b0111#4
  | .render => 0b1000#4
  | .done => 0b1001#4

/-- R94: the phase with this code; the codes `1010 .. 1111` name none (R96). -/
def phaseOfCode (code : BitVec 4) : Option Phase :=
  match code.toNat with
  | 0 => some .idle
  | 1 => some .init
  | 2 => some .pad
  | 3 => some .wcopy
  | 4 => some .expand
  | 5 => some .ldwv
  | 6 => some .round
  | 7 => some .ffwd
  | 8 => some .render
  | 9 => some .done
  | _ => none

/-- R94, R205: the row of the opcode table that `PHASE` selects. -/
def Phase.instr : Phase → Instr
  | .idle => .idle
  | .init => .init
  | .pad => .pad
  | .wcopy => .wcopy
  | .expand => .expand
  | .ldwv => .ldwv
  | .round => .round
  | .ffwd => .ffwd
  | .render => .render
  | .done => .done

/-- R94: the decoder of a phase code, total on all 16 codes. -/
def decodePhase (code : BitVec 4) : Except DecodeError Instr :=
  match phaseOfCode code with
  | some p => .ok p.instr
  | none => .error (.unreachablePhase code)

/-- R90: the decoder of both instruction sets. -/
def decode : Encoding → Except DecodeError Instr
  | .command w => decodeCommand w
  | .phase code => decodePhase code

/-- R91, R94: the encoding of an instruction, written from the two encoding tables. -/
def encode : Instr → Encoding
  | .setlen n => .command (joinCommand ⟨0x01#8, 0x00#8, n⟩)
  | .wrmsg addr byte => .command (joinCommand ⟨0x02#8, byte, addr⟩)
  | .start => .command (joinCommand ⟨0x03#8, 0x00#8, 0#64⟩)
  | .rdstat => .command (joinCommand ⟨0x04#8, 0x00#8, 0#64⟩)
  | .rddig i => .command (joinCommand ⟨0x05#8, 0x00#8, i⟩)
  | .idle => .phase Phase.idle.code
  | .init => .phase Phase.init.code
  | .pad => .phase Phase.pad.code
  | .wcopy => .phase Phase.wcopy.code
  | .expand => .phase Phase.expand.code
  | .ldwv => .phase Phase.ldwv.code
  | .round => .phase Phase.round.code
  | .ffwd => .phase Phase.ffwd.code
  | .render => .phase Phase.render.code
  | .done => .phase Phase.done.code

/-- The row of spec/opcode_table.json an instruction belongs to. -/
def Instr.mnemonic : Instr → String
  | .setlen _ => "SETLEN"
  | .wrmsg _ _ => "WRMSG"
  | .start => "START"
  | .rdstat => "RDSTAT"
  | .rddig _ => "RDDIG"
  | .idle => "IDLE"
  | .init => "INIT"
  | .pad => "PAD"
  | .wcopy => "WCOPY"
  | .expand => "EXPAND"
  | .ldwv => "LDWV"
  | .round => "ROUND"
  | .ffwd => "FFWD"
  | .render => "RENDER"
  | .done => "DONE"

/-- R90: an instruction of the host's set; the others are CORE's own. -/
def Instr.isCommand : Instr → Bool
  | .setlen _ | .wrmsg _ _ | .start | .rdstat | .rddig _ => true
  | .idle | .init | .pad | .wcopy | .expand | .ldwv | .round | .ffwd | .render | .done => false

/-- The encoding the host means by a table word: the table's `PHASE` rows have 4 bits (one byte), its `CMD` rows 80
(notes/assumptions/8.md). A number with a bit above the format's width is no encoding. -/
def tableEncoding (nbits w : Nat) : Option Encoding :=
  if nbits ≤ 8 then
    if w < 2 ^ 4 then some (.phase (BitVec.ofNat 4 w)) else none
  else
    if w < 2 ^ 80 then some (.command (BitVec.ofNat 80 w)) else none

/-- The instruction the decoder reads from a word numbered as spec/opcode_table.json numbers it. -/
def decodeTableWord (nbits w : Nat) : Option Instr :=
  match tableEncoding nbits w with
  | none => none
  | some e =>
    match decode e with
    | .ok i => some i
    | .error _ => none

end Sys2Proof
end

