-- ==== Sys2Proof/Machine/Tables.lean ====
section
/-! DEFINITION. The read-only tables of the design (spec/10_state.md R24, R25, spec/70_reset_and_hazards.md R291) and
the capacity the machine has after `State.reset`. They are constants: nothing writes them and they are not part of
State (spec/00_scope.md section 6, item 2). -/

namespace Sys2Proof.Machine

/-- R25: the initial hash value `IV[0..7]`. -/
def IV : Vector Word 8 :=
  #v[0x6a09e667, 0xbb67ae85, 0x3c6ef372, 0xa54ff53a, 0x510e527f, 0x9b05688c, 0x1f83d9ab, 0x5be0cd19]

/-- R24: one row of the rule's table, "row `r` holds `K[4r] .. K[4r+3]`". -/
def kRow (k0 k1 k2 k3 : Word) : Vector Word 4 := #v[k0, k1, k2, k3]

/-- R24: the sixteen rows of the rule's table, from the row `j = 0` to the row `j = 60`. -/
def kTable : Vector (Vector Word 4) 16 :=
  #v[kRow 0x428a2f98 0x71374491 0xb5c0fbcf 0xe9b5dba5,
     kRow 0x3956c25b 0x59f111f1 0x923f82a4 0xab1c5ed5,
     kRow 0xd807aa98 0x12835b01 0x243185be 0x550c7dc3,
     kRow 0x72be5d74 0x80deb1fe 0x9bdc06a7 0xc19bf174,
     kRow 0xe49b69c1 0xefbe4786 0x0fc19dc6 0x240ca1cc,
     kRow 0x2de92c6f 0x4a7484aa 0x5cb0a9dc 0x76f988da,
     kRow 0x983e5152 0xa831c66d 0xb00327c8 0xbf597fc7,
     kRow 0xc6e00bf3 0xd5a79147 0x06ca6351 0x14292967,
     kRow 0x27b70a85 0x2e1b2138 0x4d2c6dfc 0x53380d13,
     kRow 0x650a7354 0x766a0abb 0x81c2c92e 0x92722c85,
     kRow 0xa2bfe8a1 0xa81a664b 0xc24b8b70 0xc76c51a3,
     kRow 0xd192e819 0xd6990624 0xf40e3585 0x106aa070,
     kRow 0x19a4c116 0x1e376c08 0x2748774c 0x34b0bcb5,
     kRow 0x391c0cb3 0x4ed8aa4a 0x5b9cca4f 0x682e6ff3,
     kRow 0x748f82ee 0x78a5636f 0x84c87814 0x8cc70208,
     kRow 0x90befffa 0xa4506ceb 0xbef9a3f7 0xc67178f2]

/-- R24: the round constants `K[0..63]`: `K[j]` stands in row `j / 4` of the table, at place `j mod 4`. -/
def K : Vector Word 64 :=
  Vector.ofFn fun j => (kTable[j.val / 4]'(by omega))[j.val % 4]'(by omega)

/-- R6: the capacity `State.reset` has. DESIGN CHOICE (notes/assumptions/2.md), unsafe where a statement rests on it:
the largest legal one, so that no message the spec admits is refused for its length. -/
def msgCapAtReset : MsgCap := ⟨2 ^ 61 - 1, by decide⟩

end Sys2Proof.Machine
end

