-- ==== Sys2Proof/Machine/State.lean ====
section
/-! DEFINITION. The state of one instance of CORE and of its command port (spec/10_state.md), the reasons a run can
stop, and reset (R35). INVENTORY.md lists every field with its rule. -/

namespace Sys2Proof.Machine

/-- R14, R60: the two byte-addressed spaces. `K` and `IV` are read by index, not through `MemRead`. -/
inductive Space where
  | msg | digest
  deriving DecidableEq, Repr

/-- R261: the codes of a response word. -/
inductive RspCode where
  | ok | eIllegal | eBusy | eRange | eNotDone
  deriving DecidableEq, Repr

/-- R69, R290: one element of the total order of commands, micro-operations and resets: what happens next at this
instance. The list of them in State is the model's own field (notes/assumptions/1.md). -/
inductive Event where
  /-- R225: the host issues this word at the command port. -/
  | command (w : CommandWord)
  /-- R205: CORE is given its turn. -/
  | coreStep
  /-- R290: the platform asserts reset. -/
  | reset
  deriving DecidableEq, Repr

/-- The memory behind a byte-addressed space: the bytes that hold a value, by address. -/
abbrev Memory := List Host.Cell

/-- Why a run stops with a fault. CORE itself raises none of them (R260); both are the model's, and both are safe. -/
inductive Fault where
  /-- R269, R296, U1: PAD reads the byte `MSG[addr]`, `addr < LEN`, and no WRMSG has written it since reset. Raised by
  PAD only. Safe: the spec gives the byte no value, and nothing can be proved from a run that stops. -/
  | unwrittenMessageByte (addr : Nat)
  /-- R60, R68: an access to an address its space does not have. Raised by PAD only, and in no state that meets
  `Invariant` (R68: CORE never reads outside `MSG`). Safe. -/
  | noSuchAddress (space : Space) (addr : Nat)
  deriving DecidableEq, Repr

/-- Why an instruction has no meaning. No meaning of this model refuses. -/
inductive Refusal where
  /-- Raised by an arm of `exec` whose instruction has no meaning yet; no arm is such. Safe. -/
  | notModelled (mnemonic : String)
  deriving DecidableEq, Repr

/-- The state of one instance. The first eleven fields are the spec's (10_state.md); the last three are the model's. -/
@[ext]
structure State where
  /-- R20: the hash state. -/
  H : Vector Word 8
  /-- R21: the working variables `a .. h`. -/
  V : Vector Word 8
  /-- R38: the message schedule. -/
  W : Vector Word 64
  /-- R23: the block register. -/
  B : Vector Word 16
  /-- R26: the phase of the sequencer. -/
  PHASE : Phase
  /-- R27: the schedule-word and round index. -/
  J : BitVec 6
  /-- R28: the index of the block being processed. -/
  BLK : Word64
  /-- R28: the number of blocks. -/
  NBLK : Word64
  /-- R29: the message length in bytes. -/
  LEN : Word64
  /-- R31: message memory. A byte that is not listed holds no value (R269). -/
  MSG : Memory
  /-- R32: the digest buffer, one character code per byte. -/
  DIGEST : Vector Byte 64
  /-- R6: the parameter `MSG_CAP` of this machine. No step writes it (notes/assumptions/2.md). -/
  msgCap : MsgCap
  /-- What is still to happen at this instance, in order (notes/assumptions/1.md). -/
  inputs : List Event
  /-- R93: the response words the command port has given, oldest first (notes/assumptions/5.md). -/
  responses : List Response
  deriving DecidableEq, Repr

/-- The outcome of a step of one instance. -/
abbrev Result := Host.Outcome State Fault Refusal

/-- R35, R290: the state after reset of an instance with capacity `cap`: `PHASE = IDLE`, `LEN = 0`, no byte of `MSG` has
a value. The spec gives the registers `H`, `V`, `W`, `B`, `J`, `BLK`, `NBLK` and the bytes of `DIGEST` no value; zero is a
DESIGN CHOICE, unsafe (notes/assumptions/3.md). -/
def State.resetWith (cap : MsgCap) : State :=
  { H := Vector.ofFn fun _ => 0#32
    V := Vector.ofFn fun _ => 0#32
    W := Vector.ofFn fun _ => 0#32
    B := Vector.ofFn fun _ => 0#32
    PHASE := .idle
    J := 0#6
    BLK := 0#64
    NBLK := 0#64
    LEN := 0#64
    MSG := []
    DIGEST := Vector.ofFn fun _ => 0#8
    msgCap := cap
    inputs := []
    responses := [] }

/-- R35: the machine right after reset. -/
def State.reset : State := State.resetWith msgCapAtReset

end Sys2Proof.Machine
end

