-- ==== Sys2Proof/Machine/Ops.lean ====
section
/-! DEFINITION. The named operations over State: register writes, the two byte-addressed spaces (spec/00_scope.md R14,
spec/20_memory.md), the response and the rejection of a host command (R15, R262, this hardware's only form of taking an
exception), and the reset event (R290). There is no return from a rejection: R266, nothing is saved or restored. -/

namespace Sys2Proof.Machine

/-! ## Register writes (R15: `X <- v`) -/

def State.setH (s : State) (x : Vector Word 8) : State := { s with H := x }

def State.setV (s : State) (x : Vector Word 8) : State := { s with V := x }

def State.setW (s : State) (x : Vector Word 64) : State := { s with W := x }

def State.setB (s : State) (x : Vector Word 16) : State := { s with B := x }

def State.setPHASE (s : State) (x : Phase) : State := { s with PHASE := x }

def State.setJ (s : State) (x : BitVec 6) : State := { s with J := x }

def State.setBLK (s : State) (x : Word64) : State := { s with BLK := x }

def State.setNBLK (s : State) (x : Word64) : State := { s with NBLK := x }

def State.setLEN (s : State) (x : Word64) : State := { s with LEN := x }

def State.setMSG (s : State) (x : Memory) : State := { s with MSG := x }

def State.setDIGEST (s : State) (x : Vector Byte 64) : State := { s with DIGEST := x }

def State.setInputs (s : State) (x : List Event) : State := { s with inputs := x }

def State.setResponses (s : State) (x : List Response) : State := { s with responses := x }

/-! ## Memory -/

/-- The byte at an address, where one is listed. An address that is not listed holds NO VALUE: the spec gives `MSG` no
reset contents (R35, U1; notes/assumptions/4.md). This is the one definition of what an unlisted address reads as. -/
def Memory.read : Memory → Nat → Option Byte
  | [], _ => none
  | (a, b) :: m, addr => if addr = a then some b else Memory.read m addr

/-- The memory with one byte written, addresses kept strictly rising. No byte equals "no value", so no write removes an
entry. -/
def Memory.write : Memory → Nat → Byte → Memory
  | [], addr, v => [(addr, v)]
  | (a, b) :: m, addr, v =>
    if addr < a then (addr, v) :: (a, b) :: m
    else if addr = a then (addr, v) :: m
    else (a, b) :: Memory.write m addr v

/-- The canonical form: addresses strictly rising. -/
def Memory.wf : Memory → Bool
  | [] => true
  | [_] => true
  | (a, _) :: (a', b') :: m => decide (a < a') && Memory.wf ((a', b') :: m)

/-- R60: the number of addresses of a space: `MSG_CAP` and 64. -/
def spaceSize (space : Space) (s : State) : Nat :=
  match space with
  | .msg => s.msgCap.val
  | .digest => 64

/-- R14: `MemRead(S, addr, 1)`. -/
def memRead (space : Space) (addr : Nat) (s : State) : Except Fault Byte :=
  match space with
  | .msg =>
    if addr < s.msgCap.val then
      match s.MSG.read addr with
      | some b => .ok b
      | none => .error (.unwrittenMessageByte addr)
    else .error (.noSuchAddress .msg addr)
  | .digest =>
    if h : addr < 64 then .ok s.DIGEST[addr] else .error (.noSuchAddress .digest addr)

/-- R14, R31: `MemWrite(MSG, addr, 1, v)`. WRMSG writes below `MSG_CAP` only (R227). -/
def writeMsg (addr : Nat) (v : Byte) (s : State) : State :=
  s.setMSG (s.MSG.write addr v)

/-- R14, R32: `MemWrite(DIGEST, i, 1, c[i])` for `i = 0 .. 63` at once (R66: RENDER writes all 64 bytes in one step). -/
def writeDigest (chars : Vector Byte 64) (s : State) : State :=
  s.setDIGEST chars

/-- The results of `f 0 .. f (n-1)`, or the first fault among them. -/
def collect {α : Type} : (n : Nat) → (Nat → Except Fault α) → Except Fault (Vector α n)
  | 0, _ => .ok #v[]
  | n + 1, f =>
    match collect n f with
    | .error e => .error e
    | .ok v =>
      match f n with
      | .error e => .error e
      | .ok x => .ok (v.push x)

/-! ## Responses and rejections -/

/-- R261: the code of a response word. -/
def RspCode.bits : RspCode → BitVec 4
  | .ok => 0#4
  | .eIllegal => 1#4
  | .eBusy => 2#4
  | .eRange => 3#4
  | .eNotDone => 4#4

/-- R93: a response word, `[11:8] code`, `[7:0] data`. -/
def responseWord (code : RspCode) (data : Byte) : Response :=
  code.bits ++ data

/-- R15, R93: `respond(code, data)` ends a host command with one response word. -/
def respond (code : RspCode) (data : Byte) (s : State) : State :=
  s.setResponses (s.responses ++ [responseWord code data])

/-- R15, R262: `reject <code>` is `respond(<code>, 0)` with no other state change. -/
def reject (code : RspCode) (s : State) : State :=
  respond code 0x00#8 s

/-! ## Inputs and reset -/

/-- What happens next: the first input; with no input left the host is silent and CORE has its turn (R212, fairness;
notes/assumptions/1.md). -/
def nextEvent (s : State) : Event :=
  match s.inputs with
  | [] => .coreStep
  | e :: _ => e

/-- The state with that input taken. -/
def dropEvent (s : State) : State :=
  s.setInputs s.inputs.tail

/-- R290, R292: the reset event puts the instance into the reset state of R35. What the host has still to issue and what
it has been answered are no state of the instance and stay. -/
def resetEvent (s : State) : State :=
  ((State.resetWith s.msgCap).setInputs s.inputs).setResponses s.responses

end Sys2Proof.Machine
end

