-- ==== Sys2Proof/Machine/Operands.lean ====
section
/-! DEFINITION. The combinational functions of the data path (spec/00_scope.md R8 to R16, 40_preprocessor.md R120, R121,
41_scheduler.md R140, R141, 42_compression.md R160 to R163, 43_digest.md R190, R191): computed inside one
micro-operation and stored nowhere (R34). -/

namespace Sys2Proof.Machine

/-! ## Arithmetic and bits -/

/-- R8: `add32(x, y) = (x + y) mod 2^32`, silently. -/
def add32 (x y : Word) : Word := x + y

/-- R9: right rotation, the amount first. Defined for `1 <= n <= 31` only (U10): no other amount can be written. -/
def rotr (n : Nat) (x : Word) (_amount : 1 ≤ n ∧ n ≤ 31 := by decide) : Word :=
  (x >>> n) ||| (x <<< (32 - n))

/-- R10: logical right shift, the amount first; only the amounts 3 and 10 occur. -/
def shr (n : Nat) (x : Word) (_amount : 1 ≤ n ∧ n ≤ 31 := by decide) : Word :=
  x >>> n

/-- R12: four bytes into one word, first byte most significant. -/
def be32 (b0 b1 b2 b3 : Byte) : Word :=
  ((b0 ++ b1) ++ b2) ++ b3

/-- R12: byte `k` of a word, `k = 0 .. 3`, byte 0 the most significant. -/
def byte32 (w : Word) (k : Nat) : Byte :=
  w.extractLsb' (24 - 8 * k) 8

/-- R13: byte `k` of a 64-bit integer, `k = 0 .. 7`, byte 0 the most significant. Nothing applies it to another `k`. -/
def byte64 (v : Word64) (k : Nat) : Byte :=
  v.extractLsb' (56 - 8 * k) 8

/-! ## Padding -/

/-- R120: `nblocks(len) = ceil((len + 9) / 64)`, computed as `(len + 72) div 64`. -/
def nblocks (len : Nat) : Nat := (len + 72) / 64

/-- R62, R121: the bit length `8 * len` as the 64-bit length field. Where it does not fit 64 bits the spec states no
length field (R125, U3), and it is a free value: DESIGN CHOICE (notes/assumptions/19.md). -/
def bitLength (len : Nat) : Word64 :=
  if 8 * len < 2 ^ 64 then BitVec.ofNat 64 (8 * len) else Config.unstatedLengthField len

/-- R121: byte `P[i]` of the padded message of `len` bytes and `n` blocks, by the four cases in the order of the rule,
the message bytes read through `m`. At and above `64 * n` the rule gives no byte, and it is a free value; where `n` is
not `nblocks len` the first case that applies is taken: DESIGN CHOICE (notes/assumptions/20.md), in states no run
reaches. -/
def paddedByte (m : Nat → Except Fault Byte) (len n i : Nat) : Except Fault Byte :=
  if i < len then m i
  else if i = len then .ok 0x80#8
  else if i < 64 * n - 8 then .ok 0x00#8
  else if i < 64 * n then .ok (byte64 (bitLength len) (i - (64 * n - 8)))
  else .ok (Config.unstatedPaddedByte len n i)

/-- R61: word `t` of the block that starts at offset `64 * blk` of the padded message. -/
def paddedWord (m : Nat → Except Fault Byte) (len n blk t : Nat) : Except Fault Word := do
  let b0 ← paddedByte m len n (64 * blk + 4 * t)
  let b1 ← paddedByte m len n (64 * blk + 4 * t + 1)
  let b2 ← paddedByte m len n (64 * blk + 4 * t + 2)
  let b3 ← paddedByte m len n (64 * blk + 4 * t + 3)
  pure (be32 b0 b1 b2 b3)

/-! ## Schedule -/

/-- R140: σ0. -/
def ssig0 (x : Word) : Word := rotr 7 x ^^^ rotr 18 x ^^^ shr 3 x

/-- R141: σ1. -/
def ssig1 (x : Word) : Word := rotr 17 x ^^^ rotr 19 x ^^^ shr 10 x

/-- R143: the schedule word from `W[j-16]`, `W[j-15]`, `W[j-7]` and `W[j-2]`. -/
def scheduleWord (w16 w15 w7 w2 : Word) : Word :=
  add32 (add32 (add32 w16 (ssig0 w15)) w7) (ssig1 w2)

/-! ## Rounds -/

/-- R160: Σ0. -/
def bsig0 (x : Word) : Word := rotr 2 x ^^^ rotr 13 x ^^^ rotr 22 x

/-- R161: Σ1. -/
def bsig1 (x : Word) : Word := rotr 6 x ^^^ rotr 11 x ^^^ rotr 25 x

/-- R162: Ch. -/
def ch (x y z : Word) : Word := (x &&& y) ^^^ (~~~x &&& z)

/-- R163: Maj. -/
def maj (x y z : Word) : Word := (x &&& y) ^^^ (x &&& z) ^^^ (y &&& z)

/-- R165: `t1 = add32(h, Σ1(e), Ch(e, f, g), K[j], W[j])`. -/
def roundT1 (v : Vector Word 8) (k w : Word) : Word :=
  add32 (add32 (add32 (add32 v[7] (bsig1 v[4])) (ch v[4] v[5] v[6])) k) w

/-- R165: `t2 = add32(Σ0(a), Maj(a, b, c))`. -/
def roundT2 (v : Vector Word 8) : Word :=
  add32 (bsig0 v[0]) (maj v[0] v[1] v[2])

/-- R165: the working variables after one round; all eight writes use the values from before it. -/
def roundVars (v : Vector Word 8) (k w : Word) : Vector Word 8 :=
  #v[add32 (roundT1 v k w) (roundT2 v), v[0], v[1], v[2],
     add32 v[3] (roundT1 v k w), v[4], v[5], v[6]]

/-- R166: feed-forward, word by word. -/
def feedForward (h v : Vector Word 8) : Vector Word 8 :=
  Vector.ofFn fun i => add32 h[i] v[i]

/-! ## Digest -/

/-- R16: the ASCII code of the lowercase hexadecimal digit of `n`. -/
def hexdigit (n : BitVec 4) : Byte :=
  if n.toNat ≤ 9 then 0x30#8 + n.setWidth 8 else 0x61#8 + (n.setWidth 8 - 10#8)

/-- R190: byte `D[i]` of the 32 bytes of a state, `i = 0 .. 31`. -/
def dbyte (h : Vector Word 8) (i : Fin 32) : Byte :=
  byte32 (h[i.val / 4]'(by omega)) (i.val % 4)

/-- R191, R192: character `n` of the digest string: the high nibble of byte `n / 2` before its low nibble. -/
def digestChar (h : Vector Word 8) (n : Fin 64) : Byte :=
  let d := dbyte h ⟨n.val / 2, by omega⟩
  if n.val % 2 = 0 then hexdigit (d.extractLsb' 4 4) else hexdigit (d.extractLsb' 0 4)

/-- R192: the 64 characters. -/
def render (h : Vector Word 8) : Vector Byte 64 :=
  Vector.ofFn (digestChar h)

end Sys2Proof.Machine
end

