-- ==== Sys2Proof/Machine/Compression.lean ====
section
/-! DEFINITION. The CompressionRound: micro-operations LDWV, ROUND and FFWD (spec/42_compression.md R164 to R166). -/

namespace Sys2Proof.Machine

/-- R164: LDWV. -/
def execLdwv (s : State) : Result :=
  .next (((s.setV s.H).setJ 0#6).setPHASE .round)

/-- R165: the working variables after round `J`, with `K[J]` and `W[J]`. -/
def roundAt (v : Vector Word 8) (w : Vector Word 64) (j : BitVec 6) : Vector Word 8 :=
  roundVars v (K[j.toNat]'(by have := j.isLt; omega)) (w[j.toNat]'(by have := j.isLt; omega))

/-- R165: ROUND. -/
def execRound (s : State) : Result :=
  let t := s.setV (roundAt s.V s.W s.J)
  if s.J.toNat < 63 then .next (t.setJ (s.J + 1#6)) else .next (t.setPHASE .ffwd)

/-- R166, C7: another block follows exactly when the incremented index is below `NBLK`. -/
def phaseAfterBlock (blk nblk : Word64) : Phase :=
  if blk.toNat + 1 < nblk.toNat then .pad else .render

/-- R166: FFWD. `BLK + 1` is a sum in the 64 bits of `BLK`; it overflows in no state a run reaches (R28), and where it
would the model's wraps: DESIGN CHOICE (notes/assumptions/21.md). -/
def execFfwd (s : State) : Result :=
  .next (((s.setH (feedForward s.H s.V)).setBLK (s.BLK + 1#64)).setPHASE (phaseAfterBlock s.BLK s.NBLK))

end Sys2Proof.Machine
end

