-- ==== Sys2Proof/Machine/DigestAssembler.lean ====
section
/-! DEFINITION. The DigestAssembler: micro-operation RENDER (spec/43_digest.md R192). -/

namespace Sys2Proof.Machine

/-- R192: RENDER. -/
def execRender (s : State) : Result :=
  .next ((writeDigest (render s.H) s).setPHASE .done)

end Sys2Proof.Machine
end

