-- ==== Sys2Proof/Machine/Flags.lean ====
section
/-! DEFINITION. The two status flags (spec/10_state.md R30), both functions of `PHASE` and not separate storage. There
are no arithmetic condition codes. -/

namespace Sys2Proof.Machine

/-- R30: the busy phases are `INIT, PAD, WCOPY, EXPAND, LDWV, ROUND, FFWD, RENDER`. -/
def phaseBusy : Phase → Bool
  | .idle => false
  | .init => true
  | .pad => true
  | .wcopy => true
  | .expand => true
  | .ldwv => true
  | .round => true
  | .ffwd => true
  | .render => true
  | .done => false

/-- R30: `DONE = 1` exactly when `PHASE = DONE`. -/
def phaseDone : Phase → Bool
  | .done => true
  | .idle | .init | .pad | .wcopy | .expand | .ldwv | .round | .ffwd | .render => false

/-- R30: the flag `BUSY`. -/
def busyFlag (s : State) : Bool := phaseBusy s.PHASE

/-- R30: the flag `DONE`. R264: a platform may wire this level to its own interrupt controller; it carries no more than
RDSTAT reports. -/
def doneFlag (s : State) : Bool := phaseDone s.PHASE

/-- R229: the status byte, `data[0] = BUSY`, `data[1] = DONE`, `data[7:2] = 0`. -/
def statusByte (s : State) : Byte :=
  0#6 ++ (BitVec.ofBool (doneFlag s) ++ BitVec.ofBool (busyFlag s))

end Sys2Proof.Machine
end

