-- ==== Sys2Proof/Machine/HostCommands.lean ====
section
/-! DEFINITION. The five host commands (spec/45_host_commands.md R226 to R230), after decoding: the checks in the order
the rule lists them, then the effect and the response (R225). -/

namespace Sys2Proof.Machine

/-- R226: SETLEN `n`. -/
def execSetlen (n : Word64) (s : State) : Result :=
  if busyFlag s then .next (reject .eBusy s)
  else if s.msgCap.val < n.toNat then .next (reject .eRange s)
  else .next (respond .ok 0x00#8 (s.setLEN n))

/-- R227: WRMSG `addr, byte`. -/
def execWrmsg (addr : Word64) (byte : Byte) (s : State) : Result :=
  if busyFlag s then .next (reject .eBusy s)
  else if s.msgCap.val ≤ addr.toNat then .next (reject .eRange s)
  else .next (respond .ok 0x00#8 (writeMsg addr.toNat byte s))

/-- R228: START. -/
def execStart (s : State) : Result :=
  if busyFlag s then .next (reject .eBusy s)
  else .next (respond .ok 0x00#8 (s.setPHASE .init))

/-- R229: RDSTAT. -/
def execRdstat (s : State) : Result :=
  .next (respond .ok (statusByte s) s)

/-- R230: RDDIG `i`. The read is in range whenever it is made, so its fault arm is never taken
(`Laws.execRddig_cases`). -/
def execRddig (i : Word64) (s : State) : Result :=
  if doneFlag s = false then .next (reject .eNotDone s)
  else if 63 < i.toNat then .next (reject .eRange s)
  else
    match memRead .digest i.toNat s with
    | .ok c => .next (respond .ok c s)
    | .error f => .fault f

end Sys2Proof.Machine
end

