-- ==== Sys2Proof/Machine/Preprocessor.lean ====
section
/-! DEFINITION. The MessagePreprocessor: micro-operations INIT and PAD (spec/40_preprocessor.md R123, R124). -/

namespace Sys2Proof.Machine

/-- R123: INIT. -/
def execInit (s : State) : Result :=
  .next ((((s.setH IV).setNBLK (BitVec.ofNat 64 (nblocks s.LEN.toNat))).setBLK 0#64).setPHASE .pad)

/-- R124: block `BLK` of the padded message, taken over `m[i] = MemRead(MSG, i, 1)`, `len = LEN`, `N = NBLK`. -/
def padBlock (s : State) : Except Fault (Vector Word 16) :=
  collect 16 (paddedWord (fun i => memRead .msg i s) s.LEN.toNat s.NBLK.toNat s.BLK.toNat)

/-- R124, R269: PAD. -/
def execPad (s : State) : Result :=
  match padBlock s with
  | .ok b => .next ((s.setB b).setPHASE .wcopy)
  | .error f => .fault f

end Sys2Proof.Machine
end

