-- ==== Sys2Proof/Machine/RestPhases.lean ====
section
/-! DEFINITION. The two rest phases (spec/44_sequencer.md R207, R208): CORE has no step in them; it waits for the host and
nothing changes. -/

namespace Sys2Proof.Machine

/-- R207: `IDLE`. -/
def execIdle (s : State) : Result := .next s

/-- R208: `DONE`. `DIGEST` holds the result and does not change. -/
def execDone (s : State) : Result := .next s

end Sys2Proof.Machine
end

