-- ==== Sys2Proof/Machine/Scheduler.lean ====
section
/-! DEFINITION. The MessageScheduler: micro-operations WCOPY and EXPAND (spec/41_scheduler.md R142, R143). -/

namespace Sys2Proof.Machine

/-- R142: `W[t] <- B[t]` for `t = 0 .. 15`; the other words keep what they held. -/
def copyBlock (b : Vector Word 16) (w : Vector Word 64) : Vector Word 64 :=
  Vector.ofFn fun t => if h : t.val < 16 then b[t.val] else w[t.val]

/-- R142: WCOPY. -/
def execWcopy (s : State) : Result :=
  .next (((s.setW (copyBlock s.B s.W)).setJ 16#6).setPHASE .expand)

/-- `W[i]` for a 6-bit index. -/
def schedWordAt (w : Vector Word 64) (i : BitVec 6) : Word :=
  w[i.toNat]'(by have := i.isLt; omega)

/-- R143: `W[j]` for `j = J`. The indices are computed in the 6 bits of `J`; in phase `EXPAND` `J >= 16`, so none of them
wraps in any state a run reaches (notes/assumptions/7.md). -/
def nextScheduleWord (w : Vector Word 64) (j : BitVec 6) : Word :=
  scheduleWord (schedWordAt w (j - 16#6)) (schedWordAt w (j - 15#6)) (schedWordAt w (j - 7#6)) (schedWordAt w (j - 2#6))

/-- R143: the schedule with `W[J]` written. -/
def expandSchedule (w : Vector Word 64) (j : BitVec 6) : Vector Word 64 :=
  w.set j.toNat (nextScheduleWord w j) (by have := j.isLt; omega)

/-- R143: EXPAND. -/
def execExpand (s : State) : Result :=
  let t := s.setW (expandSchedule s.W s.J)
  if s.J.toNat < 63 then .next (t.setJ (s.J + 1#6)) else .next (t.setPHASE .ldwv)

end Sys2Proof.Machine
end

