-- ==== Sys2Proof/Machine/Dispatch.lean ====
section
/-! DEFINITION. One arm per instruction: its meaning. -/

namespace Sys2Proof.Machine

/-- The meaning of an instruction, on the state in which it is executed. -/
def exec (i : Instr) (s : State) : Host.Outcome State Fault Refusal :=
  match i with
  | .setlen n => Sys2Proof.Machine.execSetlen n s
  | .wrmsg addr byte => Sys2Proof.Machine.execWrmsg addr byte s
  | .start => Sys2Proof.Machine.execStart s
  | .rdstat => Sys2Proof.Machine.execRdstat s
  | .rddig n => Sys2Proof.Machine.execRddig n s
  | .idle => Sys2Proof.Machine.execIdle s
  | .init => Sys2Proof.Machine.execInit s
  | .pad => Sys2Proof.Machine.execPad s
  | .wcopy => Sys2Proof.Machine.execWcopy s
  | .expand => Sys2Proof.Machine.execExpand s
  | .ldwv => Sys2Proof.Machine.execLdwv s
  | .round => Sys2Proof.Machine.execRound s
  | .ffwd => Sys2Proof.Machine.execFfwd s
  | .render => Sys2Proof.Machine.execRender s
  | .done => Sys2Proof.Machine.execDone s

end Sys2Proof.Machine
end

