-- ==== Sys2Proof/Machine/Agents.lean ====
section
/-! DEFINITION. The agents (spec/00_scope.md section 6, item 1): CORE, which executes the micro-operation its `PHASE`
selects (R205); HOST, whose command word is decoded and processed atomically (R225); and the platform's reset (R290). -/

namespace Sys2Proof.Machine

/-- R205: the step of CORE, decided by `PHASE` alone. -/
def coreStep (s : State) : Result :=
  exec s.PHASE.instr s

/-- R225: decode the word; if no row matches, reject with `E_ILLEGAL`; otherwise execute the command. -/
def processCommand (w : CommandWord) (s : State) : Result :=
  match decodeCommand w with
  | .ok i => exec i s
  | .error _ => .next (reject .eIllegal s)

/-- R69: one element of the total order of commands, micro-operations and resets. -/
def stepEvent (e : Event) (s : State) : Result :=
  match e with
  | .command w => processCommand w s
  | .coreStep => coreStep s
  | .reset => .next (resetEvent s)

/-- The state in which the next step executes the instruction with this encoding: a command word is the next one at the
port; a phase code is the phase CORE is in when it has its turn. -/
def placeEncoding (e : Encoding) (s : State) : State :=
  match e with
  | .command w => s.setInputs (.command w :: s.inputs)
  | .phase code =>
    match phaseOfCode code with
    | some p => (s.setPHASE p).setInputs (.coreStep :: s.inputs)
    | none => s.setInputs (.coreStep :: s.inputs)

end Sys2Proof.Machine
end

