-- ==== Sys2Proof/Machine/Step.lean ====
section
/-! DEFINITION. The step of one instance: the next event of its total order (spec/20_memory.md R69) happens. -/

namespace Sys2Proof.Machine

/-- R69: take the next event and let it happen. -/
def step (s : State) : Host.Outcome State Fault Refusal :=
  stepEvent (nextEvent s) (dropEvent s)

/-- The state whose next step executes the table word `w`. CORE fetches nothing (R26, R73): a host command is what
arrives next at the port, a micro-operation is what `PHASE` selects (notes/assumptions/8.md). -/
def State.withFetchWord (s : State) (nbits w : Nat) : State :=
  match tableEncoding nbits w with
  | some e => placeEncoding e s
  | none => s

end Sys2Proof.Machine
end

