-- ==== Sys2Proof/Machine/Run.lean ====
section
/-! DEFINITION. Runs of one instance: several steps, one after another (spec/20_memory.md R69). -/

namespace Sys2Proof.Machine

/-- `k` steps of one instance, stopping at the first fault. It is `Host.Core.run core` with the state type written out
(`Laws.runSteps_eq`). -/
def runSteps : Nat → State → Result
  | 0, s => .next s
  | k + 1, s =>
    match step s with
    | .next t => runSteps k t
    | .fault f => .fault f
    | .refused r => .refused r

end Sys2Proof.Machine
end

