-- ==== Sys2Proof/Machine/HostProgram.lean ====
section
/-! DEFINITION. The HOST's programs (spec/30_encoding.md R98, R99, spec/45_host_commands.md R231): the
pseudo-instructions as their expansions, how a host runs them against an instance, and the spelling of a command. -/

namespace Sys2Proof.Machine

/-! ## Programs -/

/-- One line of a host program: a command issued once, or a command repeated until its response shows `DONE`. -/
inductive HostOp where
  /-- R225: issue the command and go on, whatever the response is. -/
  | once (i : Instr)
  /-- R99: issue the command again and again until a response has `data[1] = 1`. -/
  | untilDone (i : Instr)
  deriving DecidableEq, Repr

/-- The command of a line. -/
def HostOp.instr : HostOp → Instr
  | .once i => i
  | .untilDone i => i

/-- R91, R99: the number `n` as the 64-bit argument of a command. A number that does not fit is no argument, and the spec
gives a pseudo-instruction with one no expansion (U3: do not reduce a length); it is a free value: DESIGN CHOICE
(notes/assumptions/22.md). -/
def hostArg (n : Nat) : Word64 :=
  if n < 2 ^ 64 then BitVec.ofNat 64 n else Config.unstatedArgument n

/-- R99: the commands `WRMSG addr, b0`, `WRMSG addr + 1, b1`, ... for the bytes of `m`. -/
def writeBytes : Nat → List Byte → List Instr
  | _, [] => []
  | addr, b :: m => .wrmsg (hostArg addr) b :: writeBytes (addr + 1) m

/-- R99: `LOADMSG b0 b1 ... b(n-1)`: `SETLEN n`, then the bytes from address 0 on. For `2^64` bytes or
more the spec gives no expansion, and the arguments that do not fit are free values (`hostArg`,
notes/assumptions/22.md). -/
def loadMsg (m : List Byte) : List Instr :=
  .setlen (hostArg m.length) :: writeBytes 0 m

/-- R99: `WAIT`: repeat RDSTAT until a response has `data[1] = 1`. -/
def wait : HostOp := .untilDone .rdstat

/-- R99: the commands `RDDIG i .. RDDIG (i + n - 1)`. -/
def readDigestFrom : Nat → Nat → List Instr
  | _, 0 => []
  | i, n + 1 => .rddig (hostArg i) :: readDigestFrom (i + 1) n

/-- R99: `READDIGEST` is `RDDIG 0 .. RDDIG 63`. -/
def readDigest : List Instr := readDigestFrom 0 64

/-- R231: the digest transaction with these commands to load the message: `load`, START, WAIT, READDIGEST. -/
def transaction (load : List Instr) : List HostOp :=
  load.map .once ++ [.once .start, wait] ++ readDigest.map .once

/-- R99: `DIGEST b0 ... b(n-1)`: the document's one operation `digest(message)`. -/
def digestTransaction (m : List Byte) : List HostOp := transaction (loadMsg m)

/-! ## Running a program -/

/-- R90: the word of a command as it arrives at the port; a host cannot issue a micro-operation. -/
def issue (i : Instr) : List Event :=
  match encode i with
  | .command w => [.command w]
  | .phase _ => []

/-- R99: `data[1] = 1` in a response word (R93: `data` is its bits 7 to 0). -/
def showsDone (r : Response) : Bool := r.getLsbD 1

/-- R99: the response the host has just got shows `DONE = 1`. -/
def sawDone (s : State) : Bool := s.responses.getLast?.any showsDone

/-- What the host does after the response to a line: the same line again, or what follows. -/
def nextOps (op : HostOp) (rest : List HostOp) (s : State) : List HostOp :=
  match op with
  | .once _ => rest
  | .untilDone _ => if sawDone s then rest else op :: rest

/-- R69: what happens up to and including the next command: CORE has `turns` turns, then the host issues the command of
the line and is answered. -/
def issueAfter (turns : Nat) (op : HostOp) (s : State) : Result :=
  runSteps (turns + (issue op.instr).length) (s.setInputs (List.replicate turns .coreStep ++ issue op.instr))

/-- How far a host program got. -/
inductive HostRun where
  /-- Every line has been issued, and WAIT has seen `DONE`. -/
  | finished (s : State)
  /-- The schedule ends here, with these lines still to issue. -/
  | pending (ops : List HostOp) (s : State)
  /-- The instance faulted. -/
  | stopped (f : Fault)
  /-- The instance refused. None does (OnlyPadCanStop). -/
  | refused (r : Refusal)
  deriving DecidableEq, Repr

/-- R69, R99, R225: run a host program against an instance. The schedule `turns` says how many micro-operations CORE
takes before each command the host issues; R69 admits every schedule, and R212 bounds the number of polls of WAIT by
nothing, so a schedule may be of any length (notes/assumptions/9.md). The host decides by the responses alone: a line of
WAIT is issued again until its response shows `DONE`, and never after that. -/
def runHost : List Nat → List HostOp → State → HostRun
  | _, [], s => .finished s
  | [], op :: ops, s => .pending (op :: ops) s
  | n :: turns, op :: ops, s =>
    match issueAfter n op s with
    | .next t => runHost turns (nextOps op ops t) t
    | .fault f => .stopped f
    | .refused r => .refused r

/-! ## Spelling -/

/-- R98: an instruction as a program or a trace spells it, numbers in decimal; EXPAND and ROUND with the value of `J` at
the step. -/
def spelling (i : Instr) (s : State) : String :=
  match i with
  | .setlen n => i.mnemonic ++ " " ++ Nat.repr n.toNat
  | .wrmsg addr byte => i.mnemonic ++ " " ++ Nat.repr addr.toNat ++ ", " ++ Nat.repr byte.toNat
  | .rddig n => i.mnemonic ++ " " ++ Nat.repr n.toNat
  | .expand | .round => i.mnemonic ++ " " ++ Nat.repr s.J.toNat
  | .start | .rdstat | .idle | .init | .pad | .wcopy | .ldwv | .ffwd | .render | .done => i.mnemonic

end Sys2Proof.Machine
end

