-- ==== Sys2Proof/Machine/System.lean ====
section
/-! DEFINITION. `NCORES = n` instances (spec/60_exceptions.md R271, spec/20_memory.md R74, spec/10_state.md R33): each has
its own command port and its own copy of every register and memory; only the read-only tables `K` and `IV` are shared,
and they are constants. -/

namespace Sys2Proof.Machine

/-- R271: `n` instances, numbered `0 .. n - 1` by the platform. No register holds the number. -/
abbrev System (n : Nat) := Vector State n

/-- R271: each instance starts in the reset state. -/
def systemReset (n : Nat) (cap : MsgCap) : System n :=
  Vector.ofFn fun _ => State.resetWith cap

/-- R74, R271: instance `k` takes a step; there is no signal between instances. -/
def systemStep {n : Nat} (k : Fin n) (sys : System n) : Host.Outcome (System n) Fault Refusal :=
  match step sys[k] with
  | .next t => .next (sys.set k t)
  | .fault f => .fault f
  | .refused r => .refused r

end Sys2Proof.Machine
end

