-- ==== Sys2Proof/Machine/Functions.lean ====
section
/-! DEFINITION. The document's pure functions (spec/00_scope.md section 5, spec/30_encoding.md R95): `pad`, `expand`,
`compress`, `render`, `digest`. No step calls them, but for `render`; statements say that the steps compute them. -/

namespace Sys2Proof.Machine

/-- R121: the number of zero bytes, `Z = 64N - 9 - len`. -/
def zeroBytes (len : Nat) : Nat := 64 * nblocks len - 9 - len

/-- R62: the eight bytes `k = 0 .. 7` of the length field, most significant first. -/
def lengthField (len : Nat) : List Byte := (List.range 8).map (byte64 (bitLength len))

/-- R121: the padded message as the document's algorithm builds it: append `0x80`, append zero bytes, append the
length. Its length field is a free value for `2^61` bytes or more (`bitLength`, notes/assumptions/19.md). -/
def padMessage (m : List Byte) : List Byte :=
  m ++ [0x80#8] ++ List.replicate (zeroBytes m.length) 0x00#8 ++ lengthField m.length

/-- Byte `i` of a byte sequence that has one. (Above its end it answers zero, a default of the model's: `digest` asks
for bytes of its `nblocks` blocks alone, and a padded message has exactly those; notes/assumptions/20.md.) -/
def byteAt (p : List Byte) (i : Nat) : Byte := p[i]?.getD 0x00#8

/-- R61, R211: `block_b(P)`, the `b`-th 64-byte block as 16 big-endian words. -/
def blockOf (p : List Byte) (b : Nat) : Vector Word 16 :=
  Vector.ofFn fun t =>
    be32 (byteAt p (64 * b + 4 * t.val)) (byteAt p (64 * b + 4 * t.val + 1))
      (byteAt p (64 * b + 4 * t.val + 2)) (byteAt p (64 * b + 4 * t.val + 3))

/-- R144: what `expand(block)` is: the block's words first, then the recurrence of R143. -/
def IsSchedule (b : Vector Word 16) (w : Vector Word 64) : Prop :=
  (∀ t : Fin 16, w[t.val]'(by omega) = b[t]) ∧
  ∀ j : Fin 64, (h : 16 ≤ j.val) →
    w[j] = scheduleWord (w[j.val - 16]'(by omega)) (w[j.val - 15]'(by omega))
      (w[j.val - 7]'(by omega)) (w[j.val - 2]'(by omega))

/-- R144: the schedule of a block with the words `W[16] .. W[15 + k]` computed in increasing order, `k = 0 .. 48`.
Nothing asks for more. -/
def expandWords (b : Vector Word 16) : Nat → Vector Word 64
  | 0 => copyBlock b (Vector.ofFn fun _ => 0#32)
  | k + 1 => expandSchedule (expandWords b k) (BitVec.ofNat 6 (16 + k))

/-- R144: `expand(block) -> [64]uint32`. -/
def expand (b : Vector Word 16) : Vector Word 64 := expandWords b 48

/-- R167: `V^(j)`, the working variables after the first `j` rounds, `j = 0 .. 64`. Nothing asks for more. -/
def roundsFrom (v : Vector Word 8) (w : Vector Word 64) : Nat → Vector Word 8
  | 0 => v
  | j + 1 => roundAt (roundsFrom v w j) w (BitVec.ofNat 6 j)

/-- R167: `compress(state, schedule) -> state'`. -/
def compress (h : Vector Word 8) (w : Vector Word 64) : Vector Word 8 :=
  feedForward h (roundsFrom h w 64)

/-- R211: `H_b`, the hash state after the first `b` blocks of the padded message `p`. -/
def hashBlocks (p : List Byte) : Nat → Vector Word 8
  | 0 => IV
  | b + 1 => compress (hashBlocks p b) (expand (blockOf p b))

/-- R2, R211: `digest(message)`, as its 64 character codes. -/
def digest (m : List Byte) : Vector Byte 64 :=
  render (hashBlocks (padMessage m) (nblocks m.length))

end Sys2Proof.Machine
end

