-- ==== Sys2Proof/Safety.lean ====
section
/-! DEFINITION. What holds in every state of a run (spec/10_state.md R27 to R37) and what a claim about a digest assumes
(spec/60_exceptions.md R269). -/

namespace Sys2Proof.Machine

/-- R23, R26, R28: the phases in which a block is being processed. -/
def phaseInBlock : Phase → Bool
  | .pad | .wcopy | .expand | .ldwv | .round | .ffwd => true
  | .idle | .init | .render | .done => false

/-- R193: one of the sixteen character codes of `hexdigit`. -/
def isHexCode (c : Byte) : Bool :=
  decide ((0x30 ≤ c.toNat ∧ c.toNat ≤ 0x39) ∨ (0x61 ≤ c.toNat ∧ c.toNat ≤ 0x66))

/-- Every listed address is an address of `MSG` (R31, R60). -/
def memoryWithin (m : Memory) (cap : Nat) : Bool := m.all fun cell => decide (cell.1 < cap)

/-- The invariant of one instance. -/
structure Invariant (s : State) : Prop where
  /-- Message memory is in its canonical form. -/
  memWf : s.MSG.wf = true
  /-- R31, R60: message memory has no address at or above `MSG_CAP`. -/
  memWithin : memoryWithin s.MSG s.msgCap.val = true
  /-- R29: `LEN <= MSG_CAP`. -/
  lenWithin : s.LEN.toNat ≤ s.msgCap.val
  /-- R28: `0 <= BLK < NBLK` in phases `PAD` to `FFWD`. -/
  blkBelow : phaseInBlock s.PHASE = true → s.BLK.toNat < s.NBLK.toNat
  /-- R28: `NBLK` is the number of blocks of the message, from INIT on; `LEN` cannot change while CORE is busy. -/
  nblkIs : phaseInBlock s.PHASE = true → s.NBLK.toNat = nblocks s.LEN.toNat
  /-- R27: `16 <= J` in phase `EXPAND`. -/
  jExpand : s.PHASE = .expand → 16 ≤ s.J.toNat
  /-- R143, R144: in phase `EXPAND` the schedule agrees with `expand(B)` below `J`. -/
  schedulePart : s.PHASE = .expand →
    ∀ t : Fin 64, t.val < s.J.toNat → s.W[t] = (expand s.B)[t]
  /-- R38, R144: the schedule of a block is complete before its first round and stays so. -/
  scheduleWhole : s.PHASE = .ldwv ∨ s.PHASE = .round ∨ s.PHASE = .ffwd → s.W = expand s.B
  /-- R167: in phase `ROUND` the working variables are those after `J` rounds. -/
  varsPart : s.PHASE = .round → s.V = roundsFrom s.H s.W s.J.toNat
  /-- R167: in phase `FFWD` the working variables are those after 64 rounds. -/
  varsWhole : s.PHASE = .ffwd → s.V = roundsFrom s.H s.W 64
  /-- R71, R193: in phase `DONE` every byte of the digest buffer is a character code. -/
  digestHex : s.PHASE = .done → ∀ n : Fin 64, isHexCode s.DIGEST[n] = true

/-- R269: the premise of every claim about a digest: the message is `m`, its length is in `LEN`, and each of its bytes
was written. -/
def HoldsMessage (m : List Byte) (s : State) : Prop :=
  s.LEN.toNat = m.length ∧ ∀ i : Fin m.length, memRead .msg i.val s = .ok m[i]

/-- R269: every `MSG[i]`, `i < LEN`, was written since reset. -/
def MessageWritten (s : State) : Prop :=
  ∀ i, i < s.LEN.toNat → ∃ b, memRead .msg i s = .ok b

/-- R211, R167: what the digest computation of the message `m` has reached, phase by phase: the block register and the
hash state belong to `m`, not to any other message. -/
structure ComputesDigest (m : List Byte) (s : State) : Prop where
  hash : phaseInBlock s.PHASE = true → s.H = hashBlocks (padMessage m) s.BLK.toNat
  block : phaseInBlock s.PHASE = true → s.PHASE ≠ .pad → s.B = blockOf (padMessage m) s.BLK.toNat
  last : s.PHASE = .render → s.H = hashBlocks (padMessage m) (nblocks m.length)

/-! ## What a step leaves unchanged -/

/-- The pieces of State. -/
inductive Field where
  | H | V | W | B | PHASE | J | BLK | NBLK | LEN | MSG | DIGEST | msgCap | inputs | responses
  deriving DecidableEq, Repr

/-- The piece is the same in `t` as in `s`. For the two memories: every byte reads as before. -/
def Field.same (f : Field) (s t : State) : Prop :=
  match f with
  | .H => t.H = s.H
  | .V => t.V = s.V
  | .W => t.W = s.W
  | .B => t.B = s.B
  | .PHASE => t.PHASE = s.PHASE
  | .J => t.J = s.J
  | .BLK => t.BLK = s.BLK
  | .NBLK => t.NBLK = s.NBLK
  | .LEN => t.LEN = s.LEN
  | .MSG => ∀ a, memRead .msg a t = memRead .msg a s
  | .DIGEST => ∀ a, memRead .digest a t = memRead .digest a s
  | .msgCap => t.msgCap = s.msgCap
  | .inputs => t.inputs = s.inputs
  | .responses => t.responses = s.responses

/-- Every piece but the listed ones is the same. The flags are functions of `PHASE` (R30). -/
def SameBut (changed : List Field) (s t : State) : Prop :=
  ∀ f, f ∉ changed → f.same s t

/-- R93: the command was answered with this one response word, `{code, data}`. -/
def Answered (code : BitVec 4) (data : Byte) (s t : State) : Prop :=
  t.responses = s.responses ++ [code ++ data]

/-- R262: the command was rejected with this code, and nothing else happened. -/
def Rejected (code : BitVec 4) (s t : State) : Prop :=
  Answered code 0x00#8 s t ∧ SameBut [.responses] s t

end Sys2Proof.Machine
end

