-- ==== Sys2Proof/Certificates/Slice0/Obligations.lean ====
section
/-! DEFINITION. The statements for the provers, each a Prop. OBLIGATIONS.json gives the rule of spec/ behind each. -/

open Sys2Proof Sys2Proof.Machine

/-! ## Encodings -/

/-- R91, R94: decoding an encoded instruction gives it back, with every operand at every value. -/
def Obligations.DecodeInvertsEncode : Prop :=
  ∀ i : Instr, decode (encode i) = .ok i

/-- R91, R94: each word has one meaning: a word that decodes is the encoding of what it decodes to. -/
def Obligations.EncodeInvertsDecode : Prop :=
  ∀ (e : Encoding) (i : Instr), decode e = .ok i → encode i = e

/-- R91, R96: the decoder accepts exactly the words that match a row of the match and mask table, and exactly the
phase codes below 10. -/
def Obligations.DecoderAcceptsExactlyTheTable : Prop :=
  ∀ e : Encoding, (∃ i, decode e = .ok i) ↔ e.wellFormed = true

/-- R91: a word that selects a row of the match and mask table decodes to an instruction of that row; so no word
selects two rows. -/
def Obligations.SelectedRowIsDecoded : Prop :=
  ∀ (r : CommandRow) (w : CommandWord), r ∈ commandRows → r.selects w = true →
    ∃ i, decodeCommand w = .ok i ∧ i.mnemonic = r.mnemonic ∧ i.isCommand = true

/-- 95_test_vectors.md V9, 30_encoding.md R91, R94: words written out in the spec decode to the instruction they stand
for. -/
def Obligations.SpecWordsDecode : Prop :=
  decodeCommand 0x01000000000000000400#80 = .ok (.setlen 1024#64) ∧
  decodeCommand 0x02ff00000000000003ff#80 = .ok (.wrmsg 1023#64 0xff#8) ∧
  decodeCommand 0x03000000000000000000#80 = .ok .start ∧
  decodeCommand 0x04000000000000000000#80 = .ok .rdstat ∧
  decodeCommand 0x0500000000000000003f#80 = .ok (.rddig 63#64) ∧
  decodePhase 0b0010#4 = .ok .pad ∧
  decodePhase 0b0100#4 = .ok .expand ∧
  decodePhase 0b0110#4 = .ok .round ∧
  decodePhase 0b1000#4 = .ok .render

/-! ## The step -/

/-- R69, R225, with notes/assumptions/1.md for the order of events: when the next word at the port decodes to `i`, the
step takes the word and is `exec` of `i`. -/
def Obligations.StepRunsDecodedCommand : Prop :=
  ∀ (s : State) (w : CommandWord) (rest : List Event) (i : Instr),
    s.inputs = .command w :: rest → decode (.command w) = .ok i → step s = exec i (s.setInputs rest)

/-- R205, R94, with notes/assumptions/1.md for who has the turn: when CORE has its turn, or the host is silent, the
step is `exec` of the instruction that the code of `PHASE` decodes to. -/
def Obligations.StepRunsSelectedMicroOperation : Prop :=
  ∀ (s : State) (i : Instr), decode (.phase s.PHASE.code) = .ok i →
    (s.inputs = [] → step s = exec i s) ∧
    (∀ rest, s.inputs = .coreStep :: rest → step s = exec i (s.setInputs rest))

/-- R96, R225, R261: a command word that matches no row is rejected with `E_ILLEGAL` (response `0x100`) and changes no
state. -/
def Obligations.IllegalWordIsRejected : Prop :=
  ∀ (s : State) (w : CommandWord) (rest : List Event),
    s.inputs = .command w :: rest → commandWellFormed w = false →
    ∃ t, step s = .next t ∧ t.inputs = rest ∧ t.responses = s.responses ++ [0x100#12] ∧
      SameBut [.inputs, .responses] s t

/-- R261, R263: the code a command word is answered with is the first cause that applies: `E_ILLEGAL`, then the phase
check, then `E_RANGE`; with no cause it is `OK`. Stated from the fields of the word. -/
def Obligations.ResponseCodeIsTheFirstCause : Prop :=
  ∀ (s : State) (w : CommandWord) (rest : List Event), s.inputs = .command w :: rest →
    ∃ t data, step s = .next t ∧
      Answered
        (if commandWellFormed w = false then 1#4
         else if (w.extractLsb' 72 8 = 0x01#8 ∨ w.extractLsb' 72 8 = 0x02#8 ∨ w.extractLsb' 72 8 = 0x03#8) ∧
             busyFlag s = true then 2#4
         else if w.extractLsb' 72 8 = 0x05#8 ∧ doneFlag s = false then 4#4
         else if (w.extractLsb' 72 8 = 0x01#8 ∧ s.msgCap.val < (w.extractLsb' 0 64).toNat) ∨
             (w.extractLsb' 72 8 = 0x02#8 ∧ s.msgCap.val ≤ (w.extractLsb' 0 64).toNat) ∨
             (w.extractLsb' 72 8 = 0x05#8 ∧ 63 < (w.extractLsb' 0 64).toNat) then 3#4
         else 0#4) data s t

/-- R93: every command word gets exactly one response; a rejection carries data 0, and so do SETLEN, WRMSG and START.
-/
def Obligations.EveryCommandGetsOneResponse : Prop :=
  ∀ (s : State) (w : CommandWord) (rest : List Event), s.inputs = .command w :: rest →
    ∃ t code data, step s = .next t ∧ Answered code data s t ∧ code.toNat ≤ 4 ∧
      (code ≠ 0#4 → data = 0x00#8) ∧
      (data ≠ 0x00#8 → decodeCommand w = .ok .rdstat ∨ ∃ i, decodeCommand w = .ok (.rddig i))

/-- R262: a rejected command (its response code is not `OK`) changes no register, no memory byte and no flag, and its
response word is `{code, 0x00}`. -/
def Obligations.RejectionChangesNothing : Prop :=
  ∀ (s t : State) (w : CommandWord) (rest : List Event) (code : BitVec 4) (data : Byte),
    s.inputs = .command w :: rest → step s = .next t → Answered code data s t → code ≠ 0#4 →
    data = 0x00#8 ∧ t.inputs = rest ∧ SameBut [.inputs, .responses] s t ∧ t.MSG = s.MSG ∧
      busyFlag t = busyFlag s ∧ doneFlag t = doneFlag s

/-- R209: while CORE is busy no command word, whatever it is, changes anything of the instance; the word is taken and
the host gets its one response. -/
def Obligations.BusyComputationIsUndisturbed : Prop :=
  ∀ (s : State) (w : CommandWord) (rest : List Event),
    s.inputs = .command w :: rest → busyFlag s = true →
    ∃ t code data, step s = .next t ∧ t.inputs = rest ∧ Answered code data s t ∧
      SameBut [.inputs, .responses] s t ∧ t.MSG = s.MSG

/-- R208, R297 (R297 is marked as derived by the spec): in phase `DONE` no command changes `DIGEST`, and only START
leaves the phase. -/
def Obligations.FinishedDigestStays : Prop :=
  ∀ (s t : State) (w : CommandWord) (rest : List Event),
    s.inputs = .command w :: rest → s.PHASE = .done → step s = .next t →
    (∀ a, memRead .digest a t = memRead .digest a s) ∧
    ((decodeCommand w = .ok .start ∧ t.PHASE = .init) ∨ (decodeCommand w ≠ .ok .start ∧ t.PHASE = .done))

/-! ## Host commands -/

/-- R226: SETLEN, whole: its encoding, its three rejections and its effect. -/
def Obligations.SetlenRule : Prop :=
  (∀ n : Word64, decodeCommand ((0x01#8 ++ 0x00#8) ++ n) = .ok (.setlen n)) ∧
  (∀ (d : Byte) (n : Word64) (s : State), d ≠ 0x00#8 →
    ∃ t, processCommand ((0x01#8 ++ d) ++ n) s = .next t ∧ Rejected 1#4 s t) ∧
  (∀ (n : Word64) (s : State), busyFlag s = true → ∃ t, exec (.setlen n) s = .next t ∧ Rejected 2#4 s t) ∧
  (∀ (n : Word64) (s : State), busyFlag s = false → s.msgCap.val < n.toNat →
    ∃ t, exec (.setlen n) s = .next t ∧ Rejected 3#4 s t) ∧
  (∀ (n : Word64) (s : State), busyFlag s = false → n.toNat ≤ s.msgCap.val →
    ∃ t, exec (.setlen n) s = .next t ∧ t.LEN = n ∧ Answered 0#4 0x00#8 s t ∧ SameBut [.LEN, .responses] s t)

/-- R227: WRMSG, whole: its encoding, its two rejections and its effect on the one byte it stores to. -/
def Obligations.WrmsgRule : Prop :=
  (∀ (byte : Byte) (addr : Word64), decodeCommand ((0x02#8 ++ byte) ++ addr) = .ok (.wrmsg addr byte)) ∧
  (∀ (addr : Word64) (byte : Byte) (s : State), busyFlag s = true →
    ∃ t, exec (.wrmsg addr byte) s = .next t ∧ Rejected 2#4 s t) ∧
  (∀ (addr : Word64) (byte : Byte) (s : State), busyFlag s = false → s.msgCap.val ≤ addr.toNat →
    ∃ t, exec (.wrmsg addr byte) s = .next t ∧ Rejected 3#4 s t) ∧
  (∀ (addr : Word64) (byte : Byte) (s : State), busyFlag s = false → addr.toNat < s.msgCap.val →
    ∃ t, exec (.wrmsg addr byte) s = .next t ∧ memRead .msg addr.toNat t = .ok byte ∧
      (∀ a, a ≠ addr.toNat → memRead .msg a t = memRead .msg a s) ∧
      Answered 0#4 0x00#8 s t ∧ SameBut [.MSG, .responses] s t)

/-- R228: START, whole: its encoding, its two rejections and its effect, in `IDLE` and in `DONE`. -/
def Obligations.StartRule : Prop :=
  decodeCommand 0x03000000000000000000#80 = .ok .start ∧
  (∀ (d : Byte) (a : Word64) (s : State), d ≠ 0x00#8 ∨ a ≠ 0#64 →
    ∃ t, processCommand ((0x03#8 ++ d) ++ a) s = .next t ∧ Rejected 1#4 s t) ∧
  (∀ s : State, busyFlag s = true → ∃ t, exec .start s = .next t ∧ Rejected 2#4 s t) ∧
  (∀ s : State, s.PHASE = .idle ∨ s.PHASE = .done →
    ∃ t, exec .start s = .next t ∧ t.PHASE = .init ∧ busyFlag t = true ∧ doneFlag t = false ∧
      Answered 0#4 0x00#8 s t ∧ SameBut [.PHASE, .responses] s t)

/-- R229: RDSTAT, whole: its encoding, its one rejection, and the status byte in every phase. -/
def Obligations.RdstatRule : Prop :=
  decodeCommand 0x04000000000000000000#80 = .ok .rdstat ∧
  (∀ (d : Byte) (a : Word64) (s : State), d ≠ 0x00#8 ∨ a ≠ 0#64 →
    ∃ t, processCommand ((0x04#8 ++ d) ++ a) s = .next t ∧ Rejected 1#4 s t) ∧
  (∀ s : State, ∃ t data, exec .rdstat s = .next t ∧ Answered 0#4 data s t ∧ SameBut [.responses] s t ∧
    data.getLsbD 0 = busyFlag s ∧ data.getLsbD 1 = doneFlag s ∧ (∀ k, 2 ≤ k → data.getLsbD k = false) ∧
    (data = 0x00#8 ↔ s.PHASE = .idle) ∧ (data = 0x01#8 ↔ busyFlag s = true) ∧ (data = 0x02#8 ↔ s.PHASE = .done))

/-- R230: RDDIG, whole: its encoding, its three rejections, the byte it reads, and that in a state that meets the
invariant the answer is a character code. -/
def Obligations.RddigRule : Prop :=
  (∀ n : Word64, decodeCommand ((0x05#8 ++ 0x00#8) ++ n) = .ok (.rddig n)) ∧
  (∀ (d : Byte) (n : Word64) (s : State), d ≠ 0x00#8 →
    ∃ t, processCommand ((0x05#8 ++ d) ++ n) s = .next t ∧ Rejected 1#4 s t) ∧
  (∀ (n : Word64) (s : State), doneFlag s = false → ∃ t, exec (.rddig n) s = .next t ∧ Rejected 4#4 s t) ∧
  (∀ (n : Word64) (s : State), doneFlag s = true → 63 < n.toNat →
    ∃ t, exec (.rddig n) s = .next t ∧ Rejected 3#4 s t) ∧
  (∀ (n : Word64) (s : State), doneFlag s = true → n.toNat ≤ 63 →
    ∃ t c, exec (.rddig n) s = .next t ∧ memRead .digest n.toNat s = .ok c ∧ Answered 0#4 c s t ∧
      SameBut [.responses] s t ∧ (Invariant s → isHexCode c = true))

/-- R30: the two flags are functions of `PHASE`, and never both 1. -/
def Obligations.FlagsFollowPhase : Prop :=
  ∀ s : State,
    (busyFlag s = true ↔ s.PHASE = .init ∨ s.PHASE = .pad ∨ s.PHASE = .wcopy ∨ s.PHASE = .expand ∨ s.PHASE = .ldwv ∨
      s.PHASE = .round ∨ s.PHASE = .ffwd ∨ s.PHASE = .render) ∧
    (doneFlag s = true ↔ s.PHASE = .done) ∧
    (s.PHASE = .idle → busyFlag s = false ∧ doneFlag s = false) ∧
    ¬(busyFlag s = true ∧ doneFlag s = true)

/-! ## Combinational functions -/

/-- R9, which the spec supplies from general knowledge: bit `i` of `rotr(n, x)` is bit `(i + n) mod 32` of `x`, and
the formula of the rule, on numbers. -/
def Obligations.RotrMovesBits : Prop :=
  ∀ (n : Nat) (h : 1 ≤ n ∧ n ≤ 31) (x : Word),
    (∀ i, i < 32 → (rotr n x h).getLsbD i = x.getLsbD ((i + n) % 32)) ∧
    (rotr n x h).toNat = ((x.toNat / 2 ^ n) ||| (x.toNat * 2 ^ (32 - n))) % 2 ^ 32

/-- R8, R10 (the shift is logical by the spec's own inference from R7): a sum wraps modulo `2^32`; the logical shift
divides, and clears the `n` most significant bits. -/
def Obligations.AddWrapsAndShiftDivides : Prop :=
  (∀ x y : Word, (add32 x y).toNat = (x.toNat + y.toNat) % 2 ^ 32) ∧
  ∀ (n : Nat) (h : 1 ≤ n ∧ n ≤ 31) (x : Word),
    (shr n x h).toNat = x.toNat / 2 ^ n ∧ ∀ i, 32 - n ≤ i → (shr n x h).getLsbD i = false

/-- R12, R13: the big-endian assembly of four bytes, its inverse, and the bytes of a 64-bit integer. -/
def Obligations.BigEndianBytes : Prop :=
  (∀ b0 b1 b2 b3 : Byte,
    (be32 b0 b1 b2 b3).toNat = b0.toNat * 2 ^ 24 + b1.toNat * 2 ^ 16 + b2.toNat * 2 ^ 8 + b3.toNat ∧
    byte32 (be32 b0 b1 b2 b3) 0 = b0 ∧ byte32 (be32 b0 b1 b2 b3) 1 = b1 ∧
    byte32 (be32 b0 b1 b2 b3) 2 = b2 ∧ byte32 (be32 b0 b1 b2 b3) 3 = b3) ∧
  (∀ w : Word, be32 (byte32 w 0) (byte32 w 1) (byte32 w 2) (byte32 w 3) = w) ∧
  (∀ (w : Word) (k : Nat), k ≤ 3 → ∀ i, i < 8 → (byte32 w k).getLsbD i = w.getLsbD (24 - 8 * k + i)) ∧
  (∀ (v : Word64) (k : Nat), k ≤ 7 → ∀ i, i < 8 → (byte64 v k).getLsbD i = v.getLsbD (56 - 8 * k + i))

/-- R162, R163: Ch takes each bit from `y` or `z` as `x` says; Maj is the majority of the three bits; and the values
the rules list. -/
def Obligations.ChSelectsAndMajVotes : Prop :=
  (∀ (x y z : Word) (i : Nat), (ch x y z).getLsbD i = if x.getLsbD i then y.getLsbD i else z.getLsbD i) ∧
  (∀ (x y z : Word) (i : Nat), (maj x y z).getLsbD i =
    decide (2 ≤ (x.getLsbD i).toNat + (y.getLsbD i).toNat + (z.getLsbD i).toNat)) ∧
  (∀ y z : Word, ch 0 y z = z ∧ ch 0xFFFFFFFF y z = y ∧ maj y y z = y) ∧
  ch 0xF0F0F0F0 0xAAAAAAAA 0x55555555 = 0xA5A5A5A5 ∧ ch 0x510e527f 0x9b05688c 0x1f83d9ab = 0x1f85c98c ∧
  maj 0 0x11111111 0x22222222 = 0 ∧ maj 0xFFFFFFFF 0x11111111 0x22222222 = 0x33333333 ∧
  maj 0x6a09e667 0xbb67ae85 0x3c6ef372 = 0x3a6fe667

/-- R140, R141, R160, R161: bit `i` of each mixing function is the xor of the three bits its rule names, and the
values the rules list. -/
def Obligations.MixingFunctionBits : Prop :=
  (∀ (x : Word) (i : Nat), i < 32 →
    (ssig0 x).getLsbD i = (x.getLsbD ((i + 7) % 32) ^^ x.getLsbD ((i + 18) % 32) ^^ x.getLsbD (i + 3)) ∧
    (ssig1 x).getLsbD i = (x.getLsbD ((i + 17) % 32) ^^ x.getLsbD ((i + 19) % 32) ^^ x.getLsbD (i + 10)) ∧
    (bsig0 x).getLsbD i =
      (x.getLsbD ((i + 2) % 32) ^^ x.getLsbD ((i + 13) % 32) ^^ x.getLsbD ((i + 22) % 32)) ∧
    (bsig1 x).getLsbD i =
      (x.getLsbD ((i + 6) % 32) ^^ x.getLsbD ((i + 11) % 32) ^^ x.getLsbD ((i + 25) % 32))) ∧
  ssig0 0x00000000 = 0x00000000 ∧ ssig0 0x00000001 = 0x02004000 ∧ ssig0 0x80000000 = 0x11002000 ∧
  ssig0 0xFFFFFFFF = 0x1FFFFFFF ∧
  ssig1 0x00000000 = 0x00000000 ∧ ssig1 0x00000001 = 0x0000A000 ∧ ssig1 0x80000000 = 0x00205000 ∧
  ssig1 0xFFFFFFFF = 0x003FFFFF ∧
  bsig0 0x00000000 = 0x00000000 ∧ bsig0 0xFFFFFFFF = 0xFFFFFFFF ∧ bsig0 0x00000001 = 0x40080400 ∧
  bsig0 0x6a09e667 = 0xce20b47e ∧
  bsig1 0x00000000 = 0x00000000 ∧ bsig1 0xFFFFFFFF = 0xFFFFFFFF ∧ bsig1 0x00000001 = 0x04200080 ∧
  bsig1 0x510e527f = 0x3587272b

/-- R24, R25, whose values the spec supplies from general knowledge: `K[j]` is the first 32 bits of the fraction of
the cube root of the `j`-th of the first 64 primes, and `IV[i]` that of the square root of the `i`-th of the first 8.
-/
def Obligations.TablesAreRootFractions : Prop :=
  (∀ j : Fin 64, ∃ p r, ((List.range 312).filter fun q => decide (Nat.Prime q))[j.val]? = some p ∧
    r ^ 3 ≤ p * 2 ^ 96 ∧ p * 2 ^ 96 < (r + 1) ^ 3 ∧ K[j].toNat = r % 2 ^ 32) ∧
  (∀ i : Fin 8, ∃ p r, ((List.range 20).filter fun q => decide (Nat.Prime q))[i.val]? = some p ∧
    r ^ 2 ≤ p * 2 ^ 64 ∧ p * 2 ^ 64 < (r + 1) ^ 2 ∧ IV[i].toNat = r % 2 ^ 32)

/-! ## Padding -/

/-- R120, whose form `(len + 72) div 64` the spec marks as derived: `nblocks` is `ceil((len + 9) / 64)`, at least 1,
with the values the rule lists. -/
def Obligations.NblocksIsCeiling : Prop :=
  (∀ len, nblocks len = (len + 72) / 64 ∧ len + 9 ≤ 64 * nblocks len ∧ 64 * nblocks len < len + 9 + 64 ∧
    1 ≤ nblocks len) ∧
  nblocks 0 = 1 ∧ nblocks 55 = 1 ∧ nblocks 56 = 2 ∧ nblocks 63 = 2 ∧ nblocks 64 = 2 ∧ nblocks 119 = 2 ∧
  nblocks 120 = 3

/-- R121: the message padded by the document's algorithm is, byte for byte, the sequence of the rule's four cases, the
length field where the bit length fits it (the spec states none where it does not, R125, notes/assumptions/19.md); the
number of zero bytes is the least that reaches 56 modulo 64, and the length field is exact. -/
def Obligations.PaddedMessageLayout : Prop :=
  ∀ m : List Byte,
    (padMessage m).length = 64 * nblocks m.length ∧
    (∀ i, i < m.length → (padMessage m)[i]? = m[i]?) ∧
    (padMessage m)[m.length]? = some 0x80#8 ∧
    (∀ i, m.length < i → i < 64 * nblocks m.length - 8 → (padMessage m)[i]? = some 0x00#8) ∧
    (8 * m.length < 2 ^ 64 → ∀ k, k < 8 →
      (padMessage m)[64 * nblocks m.length - 8 + k]? = some (byte64 (BitVec.ofNat 64 (8 * m.length)) k)) ∧
    (m.length + 1 + zeroBytes m.length) % 64 = 56 ∧ zeroBytes m.length ≤ 63 ∧
    (∀ z, (m.length + 1 + z) % 64 = 56 → zeroBytes m.length ≤ z) ∧
    (zeroBytes m.length = 0 ↔ m.length % 64 = 55) ∧ (zeroBytes m.length = 63 ↔ m.length % 64 = 56) ∧
    (8 * m.length < 2 ^ 64 → (BitVec.ofNat 64 (8 * m.length)).toNat = 8 * m.length)

/-- R62, R122, both marked as derived by the spec: the last block holds the bit length in its last two words, `B[14] =
(8 * LEN)[63:32]`, `B[15] = (8 * LEN)[31:0]`; and it holds nothing else when the terminator is in the block before it.
-/
def Obligations.LastBlockHoldsTheLength : Prop :=
  ∀ m : List Byte, 8 * m.length < 2 ^ 64 →
    ((blockOf (padMessage m) (nblocks m.length - 1))[14] ++
      (blockOf (padMessage m) (nblocks m.length - 1))[15]).toNat = 8 * m.length ∧
    (56 ≤ m.length % 64 →
      ∀ t : Fin 14, (blockOf (padMessage m) (nblocks m.length - 1))[t.val]'(by omega) = 0x00000000)

/-! ## Micro-operations -/

/-- R123: INIT, whole. -/
def Obligations.InitRule : Prop :=
  decode (.phase 0b0001#4) = .ok .init ∧
  ∀ s : State, ∃ t, exec .init s = .next t ∧ (∀ i : Fin 8, t.H[i] = IV[i]) ∧
    t.NBLK.toNat = nblocks s.LEN.toNat ∧ 1 ≤ t.NBLK.toNat ∧ t.BLK = 0#64 ∧ t.PHASE = .pad ∧ busyFlag t = true ∧
    SameBut [.H, .NBLK, .BLK, .PHASE] s t

/-- R124, R61, R121: PAD, with the message bytes of the block readable: each word of `B` is assembled big-endian from
the padded bytes, given by the four cases of R121. Of a byte the spec does not state nothing is said: one at or above
`64 * NBLK`, and one of a length field the bit length does not fit (notes/assumptions/19.md, 20.md); nor is there a run
with either. -/
def Obligations.PadRule : Prop :=
  decode (.phase 0b0010#4) = .ok .pad ∧
  ∀ (s : State) (m : Nat → Byte),
    (∀ i, 64 * s.BLK.toNat ≤ i → i < s.LEN.toNat → i < 64 * s.BLK.toNat + 64 → memRead .msg i s = .ok (m i)) →
    ∃ (t : State) (p : Nat → Byte), exec .pad s = .next t ∧
      (∀ i, i < s.LEN.toNat → p i = m i) ∧
      p s.LEN.toNat = 0x80#8 ∧
      (∀ i, s.LEN.toNat < i → i + 8 < 64 * s.NBLK.toNat → p i = 0x00#8) ∧
      (8 * s.LEN.toNat < 2 ^ 64 → ∀ i k, s.LEN.toNat < i → k < 8 → i + 8 = 64 * s.NBLK.toNat + k →
        p i = byte64 (BitVec.ofNat 64 (8 * s.LEN.toNat)) k) ∧
      (∀ w : Fin 16, t.B[w] =
        be32 (p (64 * s.BLK.toNat + 4 * w.val)) (p (64 * s.BLK.toNat + 4 * w.val + 1))
          (p (64 * s.BLK.toNat + 4 * w.val + 2)) (p (64 * s.BLK.toNat + 4 * w.val + 3))) ∧
      t.PHASE = .wcopy ∧ SameBut [.B, .PHASE] s t

/-- R124, R211 (R211 is marked as derived by the spec): in the run of a digest computation the block PAD produces is
the block of the padded message. -/
def Obligations.PadProducesTheBlock : Prop :=
  ∀ (s : State) (m : List Byte), Invariant s → s.PHASE = .pad → HoldsMessage m s →
    ∃ t, exec .pad s = .next t ∧ t.B = blockOf (padMessage m) s.BLK.toNat

/-- R269, with notes/assumptions/4.md for the form of the fault: in a state that meets the invariant, PAD faults
exactly when a message byte of its block was never written, and the fault names such a byte. -/
def Obligations.PadFaultsOnUnwrittenBytesOnly : Prop :=
  ∀ s : State, Invariant s →
    ((∃ f, exec .pad s = .fault f) ↔
      ∃ i, 64 * s.BLK.toNat ≤ i ∧ i < s.LEN.toNat ∧ i < 64 * s.BLK.toNat + 64 ∧ s.MSG.read i = none) ∧
    ∀ f, exec .pad s = .fault f →
      ∃ i, f = .unwrittenMessageByte i ∧ 64 * s.BLK.toNat ≤ i ∧ i < s.LEN.toNat ∧ i < 64 * s.BLK.toNat + 64 ∧
        s.MSG.read i = none

/-- R68 (marked as derived by the spec), R124: PAD depends on no message byte outside its block and none at or above
`LEN`. -/
def Obligations.PadReadsItsBlockOnly : Prop :=
  ∀ s t : State, t.LEN = s.LEN → t.NBLK = s.NBLK → t.BLK = s.BLK →
    (∀ i, 64 * s.BLK.toNat ≤ i → i < s.LEN.toNat → i < 64 * s.BLK.toNat + 64 →
      memRead .msg i t = memRead .msg i s) →
    (∀ f, exec .pad s = .fault f ↔ exec .pad t = .fault f) ∧
    ∀ s', exec .pad s = .next s' → ∃ t', exec .pad t = .next t' ∧ t'.B = s'.B

/-- R142: WCOPY. -/
def Obligations.WcopyRule : Prop :=
  decode (.phase 0b0011#4) = .ok .wcopy ∧
  ∀ s : State, ∃ t, exec .wcopy s = .next t ∧
    (∀ i : Fin 16, t.W[i.val]'(by omega) = s.B[i]) ∧ (∀ i : Fin 64, 16 ≤ i.val → t.W[i] = s.W[i]) ∧
    t.J = 16#6 ∧ t.PHASE = .expand ∧ SameBut [.W, .J, .PHASE] s t

/-- R143: EXPAND, for `16 <= J <= 63`. -/
def Obligations.ExpandRule : Prop :=
  decode (.phase 0b0100#4) = .ok .expand ∧
  ∀ s : State, (hj : 16 ≤ s.J.toNat) → (hk : s.J.toNat < 64) →
    ∃ t, exec .expand s = .next t ∧
      (t.W[s.J.toNat]).toNat =
        ((s.W[s.J.toNat - 16]).toNat + (ssig0 (s.W[s.J.toNat - 15])).toNat +
          (s.W[s.J.toNat - 7]).toNat + (ssig1 (s.W[s.J.toNat - 2])).toNat) % 2 ^ 32 ∧
      (∀ i : Fin 64, i.val ≠ s.J.toNat → t.W[i] = s.W[i]) ∧
      (s.J.toNat < 63 → t.J.toNat = s.J.toNat + 1 ∧ SameBut [.W, .J] s t) ∧
      (s.J.toNat = 63 → t.PHASE = .ldwv ∧ SameBut [.W, .PHASE] s t)

/-- R164: LDWV. -/
def Obligations.LdwvRule : Prop :=
  decode (.phase 0b0101#4) = .ok .ldwv ∧
  ∀ s : State, ∃ t, exec .ldwv s = .next t ∧ (∀ i : Fin 8, t.V[i] = s.H[i]) ∧ t.J = 0#6 ∧ t.PHASE = .round ∧
    SameBut [.V, .J, .PHASE] s t

/-- R165: ROUND, for every `J`, with `t1` and `t2` of the rule as exact sums modulo `2^32`. -/
def Obligations.RoundRule : Prop :=
  decode (.phase 0b0110#4) = .ok .round ∧
  ∀ s : State, (hk : s.J.toNat < 64) → ∃ (t : State) (t1 t2 : Nat), exec .round s = .next t ∧
    t1 = ((s.V[7]).toNat + (bsig1 s.V[4]).toNat + (ch s.V[4] s.V[5] s.V[6]).toNat + (K[s.J.toNat]).toNat +
      (s.W[s.J.toNat]).toNat) % 2 ^ 32 ∧
    t2 = ((bsig0 s.V[0]).toNat + (maj s.V[0] s.V[1] s.V[2]).toNat) % 2 ^ 32 ∧
    t.V[7] = s.V[6] ∧ t.V[6] = s.V[5] ∧ t.V[5] = s.V[4] ∧ (t.V[4]).toNat = ((s.V[3]).toNat + t1) % 2 ^ 32 ∧
    t.V[3] = s.V[2] ∧ t.V[2] = s.V[1] ∧ t.V[1] = s.V[0] ∧ (t.V[0]).toNat = (t1 + t2) % 2 ^ 32 ∧
    (s.J.toNat < 63 → t.J.toNat = s.J.toNat + 1 ∧ SameBut [.V, .J] s t) ∧
    (s.J.toNat = 63 → t.PHASE = .ffwd ∧ SameBut [.V, .PHASE] s t)

/-- R166: FFWD, whole. Of an index `BLK` whose successor its 64 bits do not hold (R28: none arises) the rule states no
sum, and neither does this (notes/assumptions/21.md). -/
def Obligations.FfwdRule : Prop :=
  decode (.phase 0b0111#4) = .ok .ffwd ∧
  ∀ s : State, ∃ t, exec .ffwd s = .next t ∧
    (∀ i : Fin 8, (t.H[i]).toNat = ((s.H[i]).toNat + (s.V[i]).toNat) % 2 ^ 32) ∧
    (s.BLK.toNat + 1 < 2 ^ 64 → t.BLK.toNat = s.BLK.toNat + 1) ∧
    (s.BLK.toNat + 1 < s.NBLK.toNat → t.PHASE = .pad) ∧ (s.NBLK.toNat ≤ s.BLK.toNat + 1 → t.PHASE = .render) ∧
    SameBut [.H, .BLK, .PHASE] s t

/-- R192, R190, R191: RENDER, by the rule's pseudocode and by its equivalent form. -/
def Obligations.RenderRule : Prop :=
  decode (.phase 0b1000#4) = .ok .render ∧
  ∀ s : State, ∃ t, exec .render s = .next t ∧
    (∀ (i : Fin 8) (k : Fin 4),
      t.DIGEST[8 * i.val + 2 * k.val]'(by omega) = hexdigit ((byte32 s.H[i] k.val).extractLsb' 4 4) ∧
      t.DIGEST[8 * i.val + 2 * k.val + 1]'(by omega) = hexdigit ((byte32 s.H[i] k.val).extractLsb' 0 4)) ∧
    (∀ n : Fin 64,
      t.DIGEST[n] = hexdigit ((s.H[n.val / 8]'(by omega)).extractLsb' (28 - 4 * (n.val % 8)) 4)) ∧
    t.PHASE = .done ∧ busyFlag t = false ∧ doneFlag t = true ∧ SameBut [.DIGEST, .PHASE] s t

/-- R207, R208, R205: in a rest phase CORE has no step: with no input left, or given its turn, nothing of the instance
changes. That it waits, and does not stop, is the model's reading (notes/assumptions/6.md). -/
def Obligations.RestPhasesWait : Prop :=
  (decode (.phase 0b0000#4) = .ok .idle ∧ decode (.phase 0b1001#4) = .ok .done) ∧
  (∀ s : State, (∃ t, exec .idle s = .next t ∧ SameBut [] s t) ∧ ∃ t, exec .done s = .next t ∧ SameBut [] s t) ∧
  ∀ s : State, s.PHASE = .idle ∨ s.PHASE = .done → nextEvent s = .coreStep →
    ∃ t, step s = .next t ∧ t.inputs = s.inputs.tail ∧ SameBut [.inputs] s t

/-- R16, R193: the sixteen character codes; the digest string has no others, and two hash states with the same string
are the same. The spec marks R193 as derived from R192. -/
def Obligations.RenderIsInjectiveHex : Prop :=
  (∀ n : BitVec 4,
    (n.toNat ≤ 9 → (hexdigit n).toNat = 0x30 + n.toNat) ∧
    (10 ≤ n.toNat → (hexdigit n).toNat = 0x61 + (n.toNat - 10))) ∧
  (∀ (h : Vector Word 8) (n : Fin 64), isHexCode (render h)[n] = true) ∧
  ∀ h h' : Vector Word 8, render h = render h' ↔ h = h'

/-! ## Memory -/

/-- The canonical form makes equal contents equal data: two canonical memories that read alike are the same list. -/
def Obligations.CanonicalMemoriesAreEqual : Prop :=
  ∀ m m' : Memory, m.wf = true → m'.wf = true → (∀ a, m.read a = m'.read a) → m = m'

/-! ## Sequencer -/

/-- R206: every change of `PHASE`, with what makes it, and what the row says of `J`, `BLK`, `NBLK` and `LEN` (of `W`,
`V`, `B`, `H` and `DIGEST` the rule of the micro-operation says what it sets). -/
def Obligations.PhaseTransitionTable : Prop :=
  ∀ s t : State, Invariant s → step s = .next t →
    (nextEvent s = .reset ∧ t.PHASE = .idle ∧ t.LEN = 0#64) ∨
    (∃ w, nextEvent s = .command w ∧
      if decodeCommand w = .ok .start ∧ (s.PHASE = .idle ∨ s.PHASE = .done) then t.PHASE = .init
      else t.PHASE = s.PHASE) ∨
    (nextEvent s = .coreStep ∧
      ((s.PHASE = .idle ∧ t.PHASE = .idle) ∨
       (s.PHASE = .init ∧ t.PHASE = .pad ∧ t.BLK = 0#64 ∧ t.NBLK.toNat = nblocks s.LEN.toNat) ∨
       (s.PHASE = .pad ∧ t.PHASE = .wcopy) ∨
       (s.PHASE = .wcopy ∧ t.PHASE = .expand ∧ t.J = 16#6) ∨
       (s.PHASE = .expand ∧ s.J.toNat < 63 ∧ t.PHASE = .expand ∧ t.J.toNat = s.J.toNat + 1) ∨
       (s.PHASE = .expand ∧ s.J.toNat = 63 ∧ t.PHASE = .ldwv) ∨
       (s.PHASE = .ldwv ∧ t.PHASE = .round ∧ t.J = 0#6) ∨
       (s.PHASE = .round ∧ s.J.toNat < 63 ∧ t.PHASE = .round ∧ t.J.toNat = s.J.toNat + 1) ∨
       (s.PHASE = .round ∧ s.J.toNat = 63 ∧ t.PHASE = .ffwd) ∨
       (s.PHASE = .ffwd ∧ s.BLK.toNat + 1 < s.NBLK.toNat ∧ t.PHASE = .pad ∧ t.BLK.toNat = s.BLK.toNat + 1) ∨
       (s.PHASE = .ffwd ∧ s.BLK.toNat + 1 = s.NBLK.toNat ∧ t.PHASE = .render ∧ t.BLK.toNat = s.BLK.toNat + 1) ∨
       (s.PHASE = .render ∧ t.PHASE = .done) ∨
       (s.PHASE = .done ∧ t.PHASE = .done)))

/-- R213, which the spec marks as derived from R206: control never depends on message data: two instances that agree
on the control registers, on `LEN`, on the capacity and on what is still to happen agree on them after a step,
whatever else they hold. Of `J`, `BLK` and `NBLK` after a reset nothing is said: R35 and R290 leave them unspecified
(notes/assumptions/3.md). -/
def Obligations.ControlIgnoresData : Prop :=
  ∀ s s' t t' : State,
    (s'.PHASE = s.PHASE ∧ s'.J = s.J ∧ s'.BLK = s.BLK ∧ s'.NBLK = s.NBLK ∧ s'.LEN = s.LEN ∧ s'.msgCap = s.msgCap ∧
      s'.inputs = s.inputs) →
    step s = .next t → step s' = .next t' →
    (t'.PHASE = t.PHASE ∧ t'.LEN = t.LEN ∧ t'.msgCap = t.msgCap ∧ t'.inputs = t.inputs) ∧
    (nextEvent s ≠ .reset → t'.J = t.J ∧ t'.BLK = t.BLK ∧ t'.NBLK = t.NBLK)

/-- 10_state.md, the table of all state (column "Written by"), with R20, R21, R23, R26 to R29, R31, R32, R38: every
piece is changed only by the micro-operations and the commands the table names, `PHASE` by the sequencer and START;
reset apart. -/
def Obligations.EachPieceHasItsWriters : Prop :=
  ∀ s t : State, step s = .next t → nextEvent s ≠ .reset →
    (t.H ≠ s.H → nextEvent s = .coreStep ∧ (s.PHASE = .init ∨ s.PHASE = .ffwd)) ∧
    (t.V ≠ s.V → nextEvent s = .coreStep ∧ (s.PHASE = .ldwv ∨ s.PHASE = .round)) ∧
    (t.W ≠ s.W → nextEvent s = .coreStep ∧ (s.PHASE = .wcopy ∨ s.PHASE = .expand)) ∧
    (t.B ≠ s.B → nextEvent s = .coreStep ∧ s.PHASE = .pad) ∧
    (t.PHASE ≠ s.PHASE → busyFlag s = true ∧ nextEvent s = .coreStep ∨
      busyFlag s = false ∧ ∃ w, nextEvent s = .command w ∧ decodeCommand w = .ok .start) ∧
    (t.J ≠ s.J → nextEvent s = .coreStep ∧
      (s.PHASE = .wcopy ∨ s.PHASE = .expand ∨ s.PHASE = .ldwv ∨ s.PHASE = .round)) ∧
    (t.BLK ≠ s.BLK → nextEvent s = .coreStep ∧ (s.PHASE = .init ∨ s.PHASE = .ffwd)) ∧
    (t.NBLK ≠ s.NBLK → nextEvent s = .coreStep ∧ s.PHASE = .init) ∧
    (t.LEN ≠ s.LEN → busyFlag s = false ∧ ∃ w n, nextEvent s = .command w ∧ decodeCommand w = .ok (.setlen n)) ∧
    (∀ a, memRead .msg a t ≠ memRead .msg a s → busyFlag s = false ∧
      ∃ w n b, nextEvent s = .command w ∧ decodeCommand w = .ok (.wrmsg n b) ∧ n.toNat = a) ∧
    (t.DIGEST ≠ s.DIGEST → nextEvent s = .coreStep ∧ s.PHASE = .render) ∧
    t.msgCap = s.msgCap

/-- R36: the internal registers, `LEN` and message memory are hidden from the host: two instances with equal flags,
equal capacity and, when `DONE = 1`, equal digest buffers answer every command alike, and are alike to the host after
it. -/
def Obligations.HostSeesFlagsAndDigestOnly : Prop :=
  ∀ (s s' : State) (w : CommandWord) (rest rest' : List Event),
    s.inputs = .command w :: rest → s'.inputs = .command w :: rest' →
    busyFlag s' = busyFlag s → doneFlag s' = doneFlag s → s'.msgCap = s.msgCap →
    (doneFlag s = true → s'.DIGEST = s.DIGEST) →
    ∃ t t' code data, step s = .next t ∧ step s' = .next t' ∧ Answered code data s t ∧ Answered code data s' t' ∧
      busyFlag t' = busyFlag t ∧ doneFlag t' = doneFlag t ∧ t'.msgCap = t.msgCap ∧
      (doneFlag t = true → t'.DIGEST = t.DIGEST)

/-- R260, R269, with notes/assumptions/4.md: only PAD can stop a run, with a fault; no step is ever refused. -/
def Obligations.OnlyPadCanStop : Prop :=
  ∀ s : State, (∀ f, step s = .fault f → nextEvent s = .coreStep ∧ s.PHASE = .pad) ∧ ∀ r, step s ≠ .refused r

/-- R126, R260: with every byte below `LEN` written, every step of a state that meets the invariant has a next state.
-/
def Obligations.WrittenMessageNeverFaults : Prop :=
  ∀ s : State, Invariant s → MessageWritten s → ∃ t, step s = .next t

/-! ## Reset -/

/-- R35, R290, the part the spec gives a value (`State.reset` takes the capacity of notes/assumptions/2.md): after
reset, at any capacity, `PHASE = IDLE`, both flags are 0, `LEN = 0`, and no byte of `MSG` has a value; with several
instances each is so (R271). -/
def Obligations.ResetLeaves : Prop :=
  ∀ cap : MsgCap, (State.resetWith cap).PHASE = .idle ∧ busyFlag (State.resetWith cap) = false ∧
    doneFlag (State.resetWith cap) = false ∧ (State.resetWith cap).LEN = 0#64 ∧
    (∀ a, (State.resetWith cap).MSG.read a = none) ∧ (State.resetWith cap).msgCap = cap ∧
    State.reset = State.resetWith msgCapAtReset ∧
    ∀ (n : Nat) (k : Fin n), (systemReset n cap)[k] = State.resetWith cap

/-- R290, R292: a reset may come in any state and discards the computation: `PHASE`, both flags and `LEN` are as the
rules say. The rest is the model's: that a byte of `MSG` without a value is one that cannot be read
(notes/assumptions/4.md), that the capacity stays (2.md), and that the events still to come and the responses given stay
(18.md). What a reset leaves in the registers the spec gives no value is the model's choice too (3.md) and not stated.
-/
def Obligations.ResetEventDiscards : Prop :=
  ∀ (s : State) (rest : List Event), s.inputs = .reset :: rest →
    ∃ t, step s = .next t ∧ t.PHASE = .idle ∧ busyFlag t = false ∧ doneFlag t = false ∧ t.LEN = 0#64 ∧
      (∀ a b, memRead .msg a t ≠ .ok b) ∧ t.msgCap = s.msgCap ∧ t.inputs = rest ∧ t.responses = s.responses

/-! ## Invariants -/

/-- The invariant holds after reset, at any capacity. -/
def Obligations.InvariantAtReset : Prop :=
  ∀ cap : MsgCap, Invariant (State.resetWith cap)

/-- The parts of R27, R28, R29, R31, R143, R167 and R193 that say what always holds, several of them inferences the
spec marks as derived: every step of every state that meets the invariant keeps it. -/
def Obligations.StepKeepsInvariant : Prop :=
  ∀ s t : State, Invariant s → step s = .next t → Invariant t

/-- R168, R209, R211: under every interleaving of host commands and CORE's steps, a computation that has started on
the message `m` stays a computation on `m`, and when it reaches `DONE` the digest buffer holds `digest(m)`. -/
def Obligations.ComputationStaysOnItsMessage : Prop :=
  ∀ (m : List Byte) (s t : State),
    Invariant s → busyFlag s = true → HoldsMessage m s → ComputesDigest m s → nextEvent s ≠ .reset → step s = .next t →
    HoldsMessage m t ∧ ComputesDigest m t ∧ (t.PHASE = .done → t.DIGEST = digest m)

/-! ## What the sequence computes -/

/-- R144, which the spec marks as derived from R142 and R143: 49 steps from WCOPY leave the schedule of the block. -/
def Obligations.SchedulerComputesExpand : Prop :=
  ∀ s : State, s.PHASE = .wcopy → s.inputs = [] →
    ∃ t, runSteps 49 s = .next t ∧ t.PHASE = .ldwv ∧ IsSchedule s.B t.W ∧ SameBut [.W, .J, .PHASE] s t

/-- R144, which the spec marks as derived: the schedule depends on the block alone. -/
def Obligations.ScheduleIsUnique : Prop :=
  ∀ (b : Vector Word 16) (w : Vector Word 64), IsSchedule b w ↔ w = expand b

/-- R167, which the spec marks as derived from R164 to R166: 66 steps from LDWV leave `H = compress(H_before, W)`. -/
def Obligations.RoundsComputeCompress : Prop :=
  ∀ s : State, s.PHASE = .ldwv → s.inputs = [] →
    ∃ t, runSteps 66 s = .next t ∧ t.H = compress s.H s.W ∧
      (s.BLK.toNat + 1 < 2 ^ 64 → t.BLK.toNat = s.BLK.toNat + 1) ∧
      SameBut [.H, .V, .J, .BLK, .PHASE] s t

/-- R210, R211, which the spec marks as derived from R206: from INIT, with the message `m` in `MSG`, CORE reaches
`DONE` after exactly `2 + 116 * NBLK` micro-operations and `DIGEST = digest(m)`; it is busy until then. -/
def Obligations.CoreComputesDigest : Prop :=
  ∀ (m : List Byte) (s : State), s.PHASE = .init → s.inputs = [] → HoldsMessage m s →
    (∃ t, runSteps (2 + 116 * nblocks m.length) s = .next t ∧ t.PHASE = .done ∧ t.DIGEST = digest m) ∧
    ∀ k, k < 2 + 116 * nblocks m.length → ∃ t, runSteps k s = .next t ∧ busyFlag t = true

/-- R99, with notes/assumptions/9.md for the schedule: WAIT repeats RDSTAT until a response has `data[1] = 1`. Where it
has ended, the last response, and no earlier one, shows `DONE`, and CORE is in that phase; where the schedule has run
out before, the host has polled once for each entry, no response shows `DONE`, and WAIT is still to end. -/
def Obligations.WaitPollsUntilDone : Prop :=
  ∀ (turns : List Nat) (s : State),
    (∀ t, runHost turns [wait] s = .finished t →
      ∃ earlier, t.responses = s.responses ++ earlier ++ [0x002#12] ∧ earlier.length < turns.length ∧
        (∀ r ∈ earlier, r = 0x000#12 ∨ r = 0x001#12) ∧ t.PHASE = .done) ∧
    (∀ ops t, runHost turns [wait] s = .pending ops t →
      ∃ earlier, t.responses = s.responses ++ earlier ∧ earlier.length = turns.length ∧
        (∀ r ∈ earlier, r = 0x000#12 ∨ r = 0x001#12) ∧ ops = [wait])

/-- R231 (marked as derived by the spec), R99, with notes/assumptions/9.md for the schedule and 1.md for the order of
events: the digest transaction, from any state with `BUSY = 0`, for any message that fits, with SETLEN and the WRMSG
commands in any order. Whatever CORE's turns are between the commands, a transaction that has ended had every command
accepted, RDSTAT showed busy until it showed done, and the last 64 responses are the characters of `digest(m)`; and it
ends, and does not stop in a fault, under every schedule that gives CORE its `2 + 116 * NBLK` turns before the polls and
is long enough for the other commands. -/
def Obligations.TransactionReturnsDigest : Prop :=
  ∀ (m : List Byte) (load : List Instr) (s : State),
    busyFlag s = false → m.length ≤ s.msgCap.val → load.Perm (loadMsg m) →
    (∀ turns t, runHost turns (transaction load) s = .finished t →
      ∃ busy, t.responses = s.responses ++ List.replicate (m.length + 2) 0x000#12 ++
          (List.replicate busy 0x001#12 ++ [0x002#12]) ++ (digest m).toList.map (fun c => (0#4 ++ c : Response)) ∧
        t.PHASE = .done) ∧
    ∀ first polls last : List Nat, first.length = m.length + 2 → 2 + 116 * nblocks m.length ≤ polls.sum →
      64 ≤ last.length → ∃ t, runHost (first ++ polls ++ last) (transaction load) s = .finished t

/-! ## Several instances -/

/-- R33, R74, R271: a step of one instance changes no other, and steps of two instances give the same system in either
order. -/
def Obligations.InstancesAreIndependent : Prop :=
  ∀ (n : Nat) (k l : Fin n) (sys sk : System n), k ≠ l → systemStep k sys = .next sk →
    sk[l] = sys[l] ∧
    (∀ skl, systemStep l sk = .next skl →
      ∃ sl, systemStep l sys = .next sl ∧ systemStep k sl = .next skl)
end

