-- ==== Sys2Proof/Laws/Memory.lean ====
section
/-! SUPPORT. The laws of message memory: read after write, and that a write keeps the canonical form. -/

namespace Sys2Proof.Machine

@[simp] theorem Memory.read_nil (a : Nat) : Memory.read [] a = none := rfl

/-- A read after a write to the same address gives the byte written. -/
@[simp] theorem Memory.read_write_same (m : Memory) (a : Nat) (v : Byte) : (m.write a v).read a = some v := by
  induction m with
  | nil => simp [Memory.write, Memory.read]
  | cons c m ih =>
    obtain ⟨x, b⟩ := c
    simp only [Memory.write]
    split
    · simp [Memory.read]
    · split
      · simp [Memory.read]
      · simp [Memory.read, *]

/-- A write leaves every other address alone. -/
theorem Memory.read_write_other (m : Memory) {a b : Nat} (v : Byte) (h : b ≠ a) :
    (m.write a v).read b = m.read b := by
  induction m with
  | nil => simp [Memory.write, Memory.read, h]
  | cons c m ih =>
    obtain ⟨x, y⟩ := c
    simp only [Memory.write]
    split
    · simp [Memory.read, h]
    · split
      · rename_i hx; subst hx; simp [Memory.read, h]
      · simp [Memory.read, ih]

/-- The canonical form of a memory of at least one byte. -/
theorem Memory.wf_cons (a : Nat) (b : Byte) (m : Memory) :
    Memory.wf ((a, b) :: m) = true ↔ (∀ c ∈ m.head?, a < c.1) ∧ m.wf = true := by
  cases m with
  | nil => simp [Memory.wf]
  | cons c m => simp [Memory.wf]

/-- The lowest address after a write is the lowest before it or the one written. -/
theorem Memory.head_write (m : Memory) (a : Nat) (v : Byte) (lo : Nat) (ha : lo < a) (hm : ∀ c ∈ m.head?, lo < c.1) :
    ∀ c ∈ (m.write a v).head?, lo < c.1 := by
  cases m with
  | nil => simpa [Memory.write] using ha
  | cons c m =>
    obtain ⟨x, y⟩ := c
    have hx : lo < x := hm (x, y) (by simp)
    simp only [Memory.write]
    split
    · simpa using ha
    · split
      · simpa using ha
      · simpa using hx

/-- A write keeps the canonical form. -/
theorem Memory.write_wf (m : Memory) (a : Nat) (v : Byte) (h : m.wf = true) : (m.write a v).wf = true := by
  induction m with
  | nil => rfl
  | cons c m ih =>
    obtain ⟨x, y⟩ := c
    rw [Memory.wf_cons] at h
    simp only [Memory.write]
    split
    · next hlt => rw [Memory.wf_cons, Memory.wf_cons]; exact ⟨by simpa using hlt, h⟩
    · split
      · next heq => rw [Memory.wf_cons]; exact ⟨heq ▸ h.1, h.2⟩
      · next h1 h2 => rw [Memory.wf_cons]; exact ⟨Memory.head_write m a v x (by omega) h.1, ih h.2⟩

end Sys2Proof.Machine
end

