-- ==== Sys2Proof/Laws/State.lean ====
section
/-! SUPPORT. One lemma per field per update of State, each true by unfolding, so that no later proof unfolds a record
update. -/

namespace Sys2Proof.Machine

variable (s : State)

section
variable (x : Vector Word 8)
@[simp] theorem State.setH_H : (s.setH x).H = x := rfl
@[simp] theorem State.setH_V : (s.setH x).V = s.V := rfl
@[simp] theorem State.setH_W : (s.setH x).W = s.W := rfl
@[simp] theorem State.setH_B : (s.setH x).B = s.B := rfl
@[simp] theorem State.setH_PHASE : (s.setH x).PHASE = s.PHASE := rfl
@[simp] theorem State.setH_J : (s.setH x).J = s.J := rfl
@[simp] theorem State.setH_BLK : (s.setH x).BLK = s.BLK := rfl
@[simp] theorem State.setH_NBLK : (s.setH x).NBLK = s.NBLK := rfl
@[simp] theorem State.setH_LEN : (s.setH x).LEN = s.LEN := rfl
@[simp] theorem State.setH_MSG : (s.setH x).MSG = s.MSG := rfl
@[simp] theorem State.setH_DIGEST : (s.setH x).DIGEST = s.DIGEST := rfl
@[simp] theorem State.setH_msgCap : (s.setH x).msgCap = s.msgCap := rfl
@[simp] theorem State.setH_inputs : (s.setH x).inputs = s.inputs := rfl
@[simp] theorem State.setH_responses : (s.setH x).responses = s.responses := rfl
end

section
variable (x : Vector Word 8)
@[simp] theorem State.setV_H : (s.setV x).H = s.H := rfl
@[simp] theorem State.setV_V : (s.setV x).V = x := rfl
@[simp] theorem State.setV_W : (s.setV x).W = s.W := rfl
@[simp] theorem State.setV_B : (s.setV x).B = s.B := rfl
@[simp] theorem State.setV_PHASE : (s.setV x).PHASE = s.PHASE := rfl
@[simp] theorem State.setV_J : (s.setV x).J = s.J := rfl
@[simp] theorem State.setV_BLK : (s.setV x).BLK = s.BLK := rfl
@[simp] theorem State.setV_NBLK : (s.setV x).NBLK = s.NBLK := rfl
@[simp] theorem State.setV_LEN : (s.setV x).LEN = s.LEN := rfl
@[simp] theorem State.setV_MSG : (s.setV x).MSG = s.MSG := rfl
@[simp] theorem State.setV_DIGEST : (s.setV x).DIGEST = s.DIGEST := rfl
@[simp] theorem State.setV_msgCap : (s.setV x).msgCap = s.msgCap := rfl
@[simp] theorem State.setV_inputs : (s.setV x).inputs = s.inputs := rfl
@[simp] theorem State.setV_responses : (s.setV x).responses = s.responses := rfl
end

section
variable (x : Vector Word 64)
@[simp] theorem State.setW_H : (s.setW x).H = s.H := rfl
@[simp] theorem State.setW_V : (s.setW x).V = s.V := rfl
@[simp] theorem State.setW_W : (s.setW x).W = x := rfl
@[simp] theorem State.setW_B : (s.setW x).B = s.B := rfl
@[simp] theorem State.setW_PHASE : (s.setW x).PHASE = s.PHASE := rfl
@[simp] theorem State.setW_J : (s.setW x).J = s.J := rfl
@[simp] theorem State.setW_BLK : (s.setW x).BLK = s.BLK := rfl
@[simp] theorem State.setW_NBLK : (s.setW x).NBLK = s.NBLK := rfl
@[simp] theorem State.setW_LEN : (s.setW x).LEN = s.LEN := rfl
@[simp] theorem State.setW_MSG : (s.setW x).MSG = s.MSG := rfl
@[simp] theorem State.setW_DIGEST : (s.setW x).DIGEST = s.DIGEST := rfl
@[simp] theorem State.setW_msgCap : (s.setW x).msgCap = s.msgCap := rfl
@[simp] theorem State.setW_inputs : (s.setW x).inputs = s.inputs := rfl
@[simp] theorem State.setW_responses : (s.setW x).responses = s.responses := rfl
end

section
variable (x : Vector Word 16)
@[simp] theorem State.setB_H : (s.setB x).H = s.H := rfl
@[simp] theorem State.setB_V : (s.setB x).V = s.V := rfl
@[simp] theorem State.setB_W : (s.setB x).W = s.W := rfl
@[simp] theorem State.setB_B : (s.setB x).B = x := rfl
@[simp] theorem State.setB_PHASE : (s.setB x).PHASE = s.PHASE := rfl
@[simp] theorem State.setB_J : (s.setB x).J = s.J := rfl
@[simp] theorem State.setB_BLK : (s.setB x).BLK = s.BLK := rfl
@[simp] theorem State.setB_NBLK : (s.setB x).NBLK = s.NBLK := rfl
@[simp] theorem State.setB_LEN : (s.setB x).LEN = s.LEN := rfl
@[simp] theorem State.setB_MSG : (s.setB x).MSG = s.MSG := rfl
@[simp] theorem State.setB_DIGEST : (s.setB x).DIGEST = s.DIGEST := rfl
@[simp] theorem State.setB_msgCap : (s.setB x).msgCap = s.msgCap := rfl
@[simp] theorem State.setB_inputs : (s.setB x).inputs = s.inputs := rfl
@[simp] theorem State.setB_responses : (s.setB x).responses = s.responses := rfl
end

section
variable (x : Phase)
@[simp] theorem State.setPHASE_H : (s.setPHASE x).H = s.H := rfl
@[simp] theorem State.setPHASE_V : (s.setPHASE x).V = s.V := rfl
@[simp] theorem State.setPHASE_W : (s.setPHASE x).W = s.W := rfl
@[simp] theorem State.setPHASE_B : (s.setPHASE x).B = s.B := rfl
@[simp] theorem State.setPHASE_PHASE : (s.setPHASE x).PHASE = x := rfl
@[simp] theorem State.setPHASE_J : (s.setPHASE x).J = s.J := rfl
@[simp] theorem State.setPHASE_BLK : (s.setPHASE x).BLK = s.BLK := rfl
@[simp] theorem State.setPHASE_NBLK : (s.setPHASE x).NBLK = s.NBLK := rfl
@[simp] theorem State.setPHASE_LEN : (s.setPHASE x).LEN = s.LEN := rfl
@[simp] theorem State.setPHASE_MSG : (s.setPHASE x).MSG = s.MSG := rfl
@[simp] theorem State.setPHASE_DIGEST : (s.setPHASE x).DIGEST = s.DIGEST := rfl
@[simp] theorem State.setPHASE_msgCap : (s.setPHASE x).msgCap = s.msgCap := rfl
@[simp] theorem State.setPHASE_inputs : (s.setPHASE x).inputs = s.inputs := rfl
@[simp] theorem State.setPHASE_responses : (s.setPHASE x).responses = s.responses := rfl
end

section
variable (x : BitVec 6)
@[simp] theorem State.setJ_H : (s.setJ x).H = s.H := rfl
@[simp] theorem State.setJ_V : (s.setJ x).V = s.V := rfl
@[simp] theorem State.setJ_W : (s.setJ x).W = s.W := rfl
@[simp] theorem State.setJ_B : (s.setJ x).B = s.B := rfl
@[simp] theorem State.setJ_PHASE : (s.setJ x).PHASE = s.PHASE := rfl
@[simp] theorem State.setJ_J : (s.setJ x).J = x := rfl
@[simp] theorem State.setJ_BLK : (s.setJ x).BLK = s.BLK := rfl
@[simp] theorem State.setJ_NBLK : (s.setJ x).NBLK = s.NBLK := rfl
@[simp] theorem State.setJ_LEN : (s.setJ x).LEN = s.LEN := rfl
@[simp] theorem State.setJ_MSG : (s.setJ x).MSG = s.MSG := rfl
@[simp] theorem State.setJ_DIGEST : (s.setJ x).DIGEST = s.DIGEST := rfl
@[simp] theorem State.setJ_msgCap : (s.setJ x).msgCap = s.msgCap := rfl
@[simp] theorem State.setJ_inputs : (s.setJ x).inputs = s.inputs := rfl
@[simp] theorem State.setJ_responses : (s.setJ x).responses = s.responses := rfl
end

section
variable (x : Word64)
@[simp] theorem State.setBLK_H : (s.setBLK x).H = s.H := rfl
@[simp] theorem State.setBLK_V : (s.setBLK x).V = s.V := rfl
@[simp] theorem State.setBLK_W : (s.setBLK x).W = s.W := rfl
@[simp] theorem State.setBLK_B : (s.setBLK x).B = s.B := rfl
@[simp] theorem State.setBLK_PHASE : (s.setBLK x).PHASE = s.PHASE := rfl
@[simp] theorem State.setBLK_J : (s.setBLK x).J = s.J := rfl
@[simp] theorem State.setBLK_BLK : (s.setBLK x).BLK = x := rfl
@[simp] theorem State.setBLK_NBLK : (s.setBLK x).NBLK = s.NBLK := rfl
@[simp] theorem State.setBLK_LEN : (s.setBLK x).LEN = s.LEN := rfl
@[simp] theorem State.setBLK_MSG : (s.setBLK x).MSG = s.MSG := rfl
@[simp] theorem State.setBLK_DIGEST : (s.setBLK x).DIGEST = s.DIGEST := rfl
@[simp] theorem State.setBLK_msgCap : (s.setBLK x).msgCap = s.msgCap := rfl
@[simp] theorem State.setBLK_inputs : (s.setBLK x).inputs = s.inputs := rfl
@[simp] theorem State.setBLK_responses : (s.setBLK x).responses = s.responses := rfl
end

section
variable (x : Word64)
@[simp] theorem State.setNBLK_H : (s.setNBLK x).H = s.H := rfl
@[simp] theorem State.setNBLK_V : (s.setNBLK x).V = s.V := rfl
@[simp] theorem State.setNBLK_W : (s.setNBLK x).W = s.W := rfl
@[simp] theorem State.setNBLK_B : (s.setNBLK x).B = s.B := rfl
@[simp] theorem State.setNBLK_PHASE : (s.setNBLK x).PHASE = s.PHASE := rfl
@[simp] theorem State.setNBLK_J : (s.setNBLK x).J = s.J := rfl
@[simp] theorem State.setNBLK_BLK : (s.setNBLK x).BLK = s.BLK := rfl
@[simp] theorem State.setNBLK_NBLK : (s.setNBLK x).NBLK = x := rfl
@[simp] theorem State.setNBLK_LEN : (s.setNBLK x).LEN = s.LEN := rfl
@[simp] theorem State.setNBLK_MSG : (s.setNBLK x).MSG = s.MSG := rfl
@[simp] theorem State.setNBLK_DIGEST : (s.setNBLK x).DIGEST = s.DIGEST := rfl
@[simp] theorem State.setNBLK_msgCap : (s.setNBLK x).msgCap = s.msgCap := rfl
@[simp] theorem State.setNBLK_inputs : (s.setNBLK x).inputs = s.inputs := rfl
@[simp] theorem State.setNBLK_responses : (s.setNBLK x).responses = s.responses := rfl
end

section
variable (x : Word64)
@[simp] theorem State.setLEN_H : (s.setLEN x).H = s.H := rfl
@[simp] theorem State.setLEN_V : (s.setLEN x).V = s.V := rfl
@[simp] theorem State.setLEN_W : (s.setLEN x).W = s.W := rfl
@[simp] theorem State.setLEN_B : (s.setLEN x).B = s.B := rfl
@[simp] theorem State.setLEN_PHASE : (s.setLEN x).PHASE = s.PHASE := rfl
@[simp] theorem State.setLEN_J : (s.setLEN x).J = s.J := rfl
@[simp] theorem State.setLEN_BLK : (s.setLEN x).BLK = s.BLK := rfl
@[simp] theorem State.setLEN_NBLK : (s.setLEN x).NBLK = s.NBLK := rfl
@[simp] theorem State.setLEN_LEN : (s.setLEN x).LEN = x := rfl
@[simp] theorem State.setLEN_MSG : (s.setLEN x).MSG = s.MSG := rfl
@[simp] theorem State.setLEN_DIGEST : (s.setLEN x).DIGEST = s.DIGEST := rfl
@[simp] theorem State.setLEN_msgCap : (s.setLEN x).msgCap = s.msgCap := rfl
@[simp] theorem State.setLEN_inputs : (s.setLEN x).inputs = s.inputs := rfl
@[simp] theorem State.setLEN_responses : (s.setLEN x).responses = s.responses := rfl
end

section
variable (x : Memory)
@[simp] theorem State.setMSG_H : (s.setMSG x).H = s.H := rfl
@[simp] theorem State.setMSG_V : (s.setMSG x).V = s.V := rfl
@[simp] theorem State.setMSG_W : (s.setMSG x).W = s.W := rfl
@[simp] theorem State.setMSG_B : (s.setMSG x).B = s.B := rfl
@[simp] theorem State.setMSG_PHASE : (s.setMSG x).PHASE = s.PHASE := rfl
@[simp] theorem State.setMSG_J : (s.setMSG x).J = s.J := rfl
@[simp] theorem State.setMSG_BLK : (s.setMSG x).BLK = s.BLK := rfl
@[simp] theorem State.setMSG_NBLK : (s.setMSG x).NBLK = s.NBLK := rfl
@[simp] theorem State.setMSG_LEN : (s.setMSG x).LEN = s.LEN := rfl
@[simp] theorem State.setMSG_MSG : (s.setMSG x).MSG = x := rfl
@[simp] theorem State.setMSG_DIGEST : (s.setMSG x).DIGEST = s.DIGEST := rfl
@[simp] theorem State.setMSG_msgCap : (s.setMSG x).msgCap = s.msgCap := rfl
@[simp] theorem State.setMSG_inputs : (s.setMSG x).inputs = s.inputs := rfl
@[simp] theorem State.setMSG_responses : (s.setMSG x).responses = s.responses := rfl
end

section
variable (x : Vector Byte 64)
@[simp] theorem State.setDIGEST_H : (s.setDIGEST x).H = s.H := rfl
@[simp] theorem State.setDIGEST_V : (s.setDIGEST x).V = s.V := rfl
@[simp] theorem State.setDIGEST_W : (s.setDIGEST x).W = s.W := rfl
@[simp] theorem State.setDIGEST_B : (s.setDIGEST x).B = s.B := rfl
@[simp] theorem State.setDIGEST_PHASE : (s.setDIGEST x).PHASE = s.PHASE := rfl
@[simp] theorem State.setDIGEST_J : (s.setDIGEST x).J = s.J := rfl
@[simp] theorem State.setDIGEST_BLK : (s.setDIGEST x).BLK = s.BLK := rfl
@[simp] theorem State.setDIGEST_NBLK : (s.setDIGEST x).NBLK = s.NBLK := rfl
@[simp] theorem State.setDIGEST_LEN : (s.setDIGEST x).LEN = s.LEN := rfl
@[simp] theorem State.setDIGEST_MSG : (s.setDIGEST x).MSG = s.MSG := rfl
@[simp] theorem State.setDIGEST_DIGEST : (s.setDIGEST x).DIGEST = x := rfl
@[simp] theorem State.setDIGEST_msgCap : (s.setDIGEST x).msgCap = s.msgCap := rfl
@[simp] theorem State.setDIGEST_inputs : (s.setDIGEST x).inputs = s.inputs := rfl
@[simp] theorem State.setDIGEST_responses : (s.setDIGEST x).responses = s.responses := rfl
end

section
variable (x : List Event)
@[simp] theorem State.setInputs_H : (s.setInputs x).H = s.H := rfl
@[simp] theorem State.setInputs_V : (s.setInputs x).V = s.V := rfl
@[simp] theorem State.setInputs_W : (s.setInputs x).W = s.W := rfl
@[simp] theorem State.setInputs_B : (s.setInputs x).B = s.B := rfl
@[simp] theorem State.setInputs_PHASE : (s.setInputs x).PHASE = s.PHASE := rfl
@[simp] theorem State.setInputs_J : (s.setInputs x).J = s.J := rfl
@[simp] theorem State.setInputs_BLK : (s.setInputs x).BLK = s.BLK := rfl
@[simp] theorem State.setInputs_NBLK : (s.setInputs x).NBLK = s.NBLK := rfl
@[simp] theorem State.setInputs_LEN : (s.setInputs x).LEN = s.LEN := rfl
@[simp] theorem State.setInputs_MSG : (s.setInputs x).MSG = s.MSG := rfl
@[simp] theorem State.setInputs_DIGEST : (s.setInputs x).DIGEST = s.DIGEST := rfl
@[simp] theorem State.setInputs_msgCap : (s.setInputs x).msgCap = s.msgCap := rfl
@[simp] theorem State.setInputs_inputs : (s.setInputs x).inputs = x := rfl
@[simp] theorem State.setInputs_responses : (s.setInputs x).responses = s.responses := rfl
end

section
variable (x : List Response)
@[simp] theorem State.setResponses_H : (s.setResponses x).H = s.H := rfl
@[simp] theorem State.setResponses_V : (s.setResponses x).V = s.V := rfl
@[simp] theorem State.setResponses_W : (s.setResponses x).W = s.W := rfl
@[simp] theorem State.setResponses_B : (s.setResponses x).B = s.B := rfl
@[simp] theorem State.setResponses_PHASE : (s.setResponses x).PHASE = s.PHASE := rfl
@[simp] theorem State.setResponses_J : (s.setResponses x).J = s.J := rfl
@[simp] theorem State.setResponses_BLK : (s.setResponses x).BLK = s.BLK := rfl
@[simp] theorem State.setResponses_NBLK : (s.setResponses x).NBLK = s.NBLK := rfl
@[simp] theorem State.setResponses_LEN : (s.setResponses x).LEN = s.LEN := rfl
@[simp] theorem State.setResponses_MSG : (s.setResponses x).MSG = s.MSG := rfl
@[simp] theorem State.setResponses_DIGEST : (s.setResponses x).DIGEST = s.DIGEST := rfl
@[simp] theorem State.setResponses_msgCap : (s.setResponses x).msgCap = s.msgCap := rfl
@[simp] theorem State.setResponses_inputs : (s.setResponses x).inputs = s.inputs := rfl
@[simp] theorem State.setResponses_responses : (s.setResponses x).responses = x := rfl
end

/-! What is still to happen is independent of every other piece: `setInputs` moves outwards past a register write. -/

section
variable (e : List Event)
@[simp] theorem State.setInputs_setH (x : Vector Word 8) :
    (s.setInputs e).setH x = (s.setH x).setInputs e := rfl
@[simp] theorem State.setInputs_setV (x : Vector Word 8) :
    (s.setInputs e).setV x = (s.setV x).setInputs e := rfl
@[simp] theorem State.setInputs_setW (x : Vector Word 64) :
    (s.setInputs e).setW x = (s.setW x).setInputs e := rfl
@[simp] theorem State.setInputs_setB (x : Vector Word 16) :
    (s.setInputs e).setB x = (s.setB x).setInputs e := rfl
@[simp] theorem State.setInputs_setPHASE (x : Phase) :
    (s.setInputs e).setPHASE x = (s.setPHASE x).setInputs e := rfl
@[simp] theorem State.setInputs_setJ (x : BitVec 6) :
    (s.setInputs e).setJ x = (s.setJ x).setInputs e := rfl
@[simp] theorem State.setInputs_setBLK (x : Word64) :
    (s.setInputs e).setBLK x = (s.setBLK x).setInputs e := rfl
@[simp] theorem State.setInputs_setNBLK (x : Word64) :
    (s.setInputs e).setNBLK x = (s.setNBLK x).setInputs e := rfl
@[simp] theorem State.setInputs_setLEN (x : Word64) :
    (s.setInputs e).setLEN x = (s.setLEN x).setInputs e := rfl
@[simp] theorem State.setInputs_setMSG (x : Memory) :
    (s.setInputs e).setMSG x = (s.setMSG x).setInputs e := rfl
@[simp] theorem State.setInputs_setDIGEST (x : Vector Byte 64) :
    (s.setInputs e).setDIGEST x = (s.setDIGEST x).setInputs e := rfl
@[simp] theorem State.setInputs_setResponses (x : List Response) :
    (s.setInputs e).setResponses x = (s.setResponses x).setInputs e := rfl
@[simp] theorem State.setInputs_setInputs (x : List Event) : (s.setInputs e).setInputs x = s.setInputs x := rfl
end

end Sys2Proof.Machine
end

