-- ==== Sys2Proof/Laws/Ops.lean ====
section
/-! SUPPORT. What each shared operation does, said once. -/

namespace Sys2Proof.Machine

/-! ## Reads and writes of the two spaces -/

/-- A read of message memory answers exactly with the byte written below `MSG_CAP`. -/
theorem memRead_msg_ok {a : Nat} {s : State} {b : Byte} :
    memRead .msg a s = .ok b ↔ a < s.msgCap.val ∧ s.MSG.read a = some b := by
  simp only [memRead]
  split
  · next h => cases hr : s.MSG.read a <;> simp [h]
  · next h => simp [h]

/-- A read of message memory below `MSG_CAP` faults exactly when nothing was written there. -/
theorem memRead_msg_error {a : Nat} {s : State} {f : Fault} :
    memRead .msg a s = .error f ↔
      (a < s.msgCap.val ∧ s.MSG.read a = none ∧ f = .unwrittenMessageByte a) ∨
        (s.msgCap.val ≤ a ∧ f = .noSuchAddress .msg a) := by
  simp only [memRead]
  split
  · next h =>
    cases hr : s.MSG.read a with
    | none => simp [h, Nat.not_le.mpr h, eq_comm (a := f)]
    | some b => simp [h, Nat.not_le.mpr h]
  · next h => simp [h, Nat.not_lt.mp h, eq_comm (a := f)]

/-- A read of the digest buffer below 64 always answers. -/
theorem memRead_digest {a : Nat} (h : a < 64) (s : State) : memRead .digest a s = .ok s.DIGEST[a] := by
  simp [memRead, h]

/-- A read of message memory depends on `MSG` and `MSG_CAP` only. -/
theorem memRead_msg_congr {s t : State} (hm : t.MSG = s.MSG) (hc : t.msgCap = s.msgCap) (a : Nat) :
    memRead .msg a t = memRead .msg a s := by
  simp [memRead, hm, hc]

/-- A read of the digest buffer depends on `DIGEST` only. -/
theorem memRead_digest_congr {s t : State} (hd : t.DIGEST = s.DIGEST) (a : Nat) :
    memRead .digest a t = memRead .digest a s := by
  simp [memRead, hd]

@[simp] theorem writeMsg_eq (a : Nat) (v : Byte) (s : State) : writeMsg a v s = s.setMSG (s.MSG.write a v) := rfl

@[simp] theorem writeDigest_eq (c : Vector Byte 64) (s : State) : writeDigest c s = s.setDIGEST c := rfl

/-! ## `collect` -/

/-- `collect` answers with `v` exactly when each result is the entry of `v`. -/
theorem collect_ok_iff {α : Type} (n : Nat) (f : Nat → Except Fault α) (v : Vector α n) :
    collect n f = .ok v ↔ ∀ i, (h : i < n) → f i = .ok v[i] := by
  induction n with
  | zero =>
    have : v = #v[] := by ext i h; omega
    simp [collect, this]
  | succ n ih =>
    constructor
    · intro h
      simp only [collect] at h
      split at h
      · cases h
      · next u hu =>
        split at h
        · cases h
        · next x hx =>
          injection h with h
          subst h
          intro i hi
          rcases Nat.lt_succ_iff_lt_or_eq.mp hi with hlt | rfl
          · rw [Vector.getElem_push_lt hlt]; exact (ih u).mp hu i hlt
          · simpa using hx
    · intro h
      have hp : collect n f = .ok v.pop := (ih v.pop).mpr fun i hi => by
        rw [Vector.getElem_pop]; exact h i (by omega)
      simp only [collect, hp, h n (by omega)]
      congr 1
      exact Vector.push_pop_back v

/-- `collect` faults only with a fault of one of its results. -/
theorem collect_error {α : Type} (n : Nat) (f : Nat → Except Fault α) (e : Fault) (h : collect n f = .error e) :
    ∃ i, i < n ∧ f i = .error e := by
  induction n with
  | zero => cases h
  | succ n ih =>
    simp only [collect] at h
    split at h
    · next e' he =>
      injection h with h
      obtain ⟨i, hi, hf⟩ := ih (h ▸ he)
      exact ⟨i, by omega, hf⟩
    · split at h
      · next e' he => injection h with h; exact ⟨n, by omega, h ▸ he⟩
      · cases h

/-! ## Responses and rejections -/

section
variable (c : RspCode) (d : Byte) (s : State)
@[simp] theorem respond_H : (respond c d s).H = s.H := rfl
@[simp] theorem respond_V : (respond c d s).V = s.V := rfl
@[simp] theorem respond_W : (respond c d s).W = s.W := rfl
@[simp] theorem respond_B : (respond c d s).B = s.B := rfl
@[simp] theorem respond_PHASE : (respond c d s).PHASE = s.PHASE := rfl
@[simp] theorem respond_J : (respond c d s).J = s.J := rfl
@[simp] theorem respond_BLK : (respond c d s).BLK = s.BLK := rfl
@[simp] theorem respond_NBLK : (respond c d s).NBLK = s.NBLK := rfl
@[simp] theorem respond_LEN : (respond c d s).LEN = s.LEN := rfl
@[simp] theorem respond_MSG : (respond c d s).MSG = s.MSG := rfl
@[simp] theorem respond_DIGEST : (respond c d s).DIGEST = s.DIGEST := rfl
@[simp] theorem respond_msgCap : (respond c d s).msgCap = s.msgCap := rfl
@[simp] theorem respond_inputs : (respond c d s).inputs = s.inputs := rfl
@[simp] theorem respond_responses : (respond c d s).responses = s.responses ++ [c.bits ++ d] := rfl
@[simp] theorem respond_setInputs (x : List Event) : respond c d (s.setInputs x) = (respond c d s).setInputs x := rfl
@[simp] theorem busyFlag_respond : busyFlag (respond c d s) = busyFlag s := rfl
@[simp] theorem doneFlag_respond : doneFlag (respond c d s) = doneFlag s := rfl
theorem reject_eq : reject c s = respond c 0x00#8 s := rfl
end

/-- A response word determines its code and its data. -/
theorem responseWord_inj {c c' : BitVec 4} {d d' : Byte} (h : (c ++ d : Response) = c' ++ d') : c = c' ∧ d = d' := by
  constructor
  · apply BitVec.eq_of_getLsbD_eq
    intro i hi
    have hb := congrArg (·.getLsbD (i + 8)) h
    simpa using ((BitVec.getLsbD_append (x := c) (y := d)).symm.trans hb).trans
      (BitVec.getLsbD_append (x := c') (y := d'))
  · apply BitVec.eq_of_getLsbD_eq
    intro i hi
    have hb := congrArg (·.getLsbD i) h
    simpa [hi] using ((BitVec.getLsbD_append (x := c) (y := d)).symm.trans hb).trans
      (BitVec.getLsbD_append (x := c') (y := d'))

/-! ## Inputs and reset -/

section
variable (s : State)
theorem nextEvent_cons {e : Event} {rest : List Event} (h : s.inputs = e :: rest) : nextEvent s = e := by
  simp [nextEvent, h]
theorem nextEvent_nil (h : s.inputs = []) : nextEvent s = .coreStep := by simp [nextEvent, h]
theorem dropEvent_cons {e : Event} {rest : List Event} (h : s.inputs = e :: rest) : dropEvent s = s.setInputs rest := by
  simp [dropEvent, h]
theorem dropEvent_nil (h : s.inputs = []) : dropEvent s = s := by
  cases s; simp_all [dropEvent, State.setInputs]
@[simp] theorem setInputs_self (x : List Event) : (s.setInputs x).setInputs s.inputs = s := rfl
@[simp] theorem resetEvent_PHASE : (resetEvent s).PHASE = .idle := rfl
@[simp] theorem resetEvent_LEN : (resetEvent s).LEN = 0#64 := rfl
@[simp] theorem resetEvent_MSG : (resetEvent s).MSG = [] := rfl
@[simp] theorem resetEvent_msgCap : (resetEvent s).msgCap = s.msgCap := rfl
@[simp] theorem resetEvent_inputs : (resetEvent s).inputs = s.inputs := rfl
@[simp] theorem resetEvent_responses : (resetEvent s).responses = s.responses := rfl
end

/-! ## Flags -/

/-- `BUSY = 0` exactly in the two rest phases. -/
theorem busyFlag_eq_false (s : State) : busyFlag s = false ↔ s.PHASE = .idle ∨ s.PHASE = .done := by
  cases h : s.PHASE <;> simp [busyFlag, phaseBusy, h]

theorem doneFlag_eq_true (s : State) : doneFlag s = true ↔ s.PHASE = .done := by
  cases h : s.PHASE <;> simp [doneFlag, phaseDone, h]

end Sys2Proof.Machine
end

