-- ==== Sys2Proof/Laws/Exec.lean ====
section
/-! SUPPORT. Everything an instruction and a step can do, said once: the inversion lemmas the proofs cite. -/

namespace Sys2Proof.Machine

/-- The read of RDDIG is in range whenever it is made, so RDDIG never faults. -/
theorem execRddig_cases (n : Word64) (s : State) :
    (doneFlag s = false ∧ execRddig n s = .next (reject .eNotDone s)) ∨
    (doneFlag s = true ∧ 63 < n.toNat ∧ execRddig n s = .next (reject .eRange s)) ∨
    (doneFlag s = true ∧ ∃ h : n.toNat < 64, execRddig n s = .next (respond .ok s.DIGEST[n.toNat] s)) := by
  cases hd : doneFlag s
  · exact .inl ⟨rfl, by simp [execRddig, hd]⟩
  · by_cases hn : 63 < n.toNat
    · exact .inr (.inl ⟨rfl, hn, by simp [execRddig, hd, hn]⟩)
    · exact .inr (.inr ⟨rfl, by omega, by
        simp [execRddig, hd, hn, memRead_digest (show n.toNat < 64 by omega)]⟩)

/-- What a host command does before it answers: nothing, or the one effect of SETLEN, WRMSG or START, each only with
`BUSY = 0` and its argument in range. -/
inductive CommandEffect (s : State) : Instr → RspCode → State → Prop where
  | none (i : Instr) (c : RspCode) : CommandEffect s i c s
  | setlen (n : Word64) : busyFlag s = false → n.toNat ≤ s.msgCap.val → CommandEffect s (.setlen n) .ok (s.setLEN n)
  | wrmsg (addr : Word64) (byte : Byte) : busyFlag s = false → addr.toNat < s.msgCap.val →
      CommandEffect s (.wrmsg addr byte) .ok (s.setMSG (s.MSG.write addr.toNat byte))
  | start : busyFlag s = false → CommandEffect s .start .ok (s.setPHASE .init)

/-- Everything a host command can do: it answers with one response word, after its effect; a rejection has none and
carries data 0, and only RDSTAT and RDDIG carry other data. -/
theorem exec_command_cases (i : Instr) (hi : i.isCommand = true) (s : State) :
    ∃ c d u, exec i s = .next (respond c d u) ∧ CommandEffect s i c u ∧ (c ≠ .ok → d = 0x00#8 ∧ u = s) ∧
      (d ≠ 0x00#8 → i = .rdstat ∨ ∃ n, i = .rddig n) := by
  cases i with
  | setlen n =>
    simp only [exec, execSetlen, reject_eq]
    split
    · exact ⟨_, _, _, rfl, .none _ _, by simp, by simp⟩
    · split
      · exact ⟨_, _, _, rfl, .none _ _, by simp, by simp⟩
      · exact ⟨_, _, _, rfl, .setlen n (by simp_all) (by omega), by simp, by simp⟩
  | wrmsg addr byte =>
    simp only [exec, execWrmsg, reject_eq, writeMsg_eq]
    split
    · exact ⟨_, _, _, rfl, .none _ _, by simp, by simp⟩
    · split
      · exact ⟨_, _, _, rfl, .none _ _, by simp, by simp⟩
      · exact ⟨_, _, _, rfl, .wrmsg addr byte (by simp_all) (by omega), by simp, by simp⟩
  | start =>
    simp only [exec, execStart, reject_eq]
    split
    · exact ⟨_, _, _, rfl, .none _ _, by simp, by simp⟩
    · exact ⟨_, _, _, rfl, .start (by simp_all), by simp, by simp⟩
  | rdstat => exact ⟨_, _, _, rfl, .none _ _, by simp, by simp⟩
  | rddig n =>
    rcases execRddig_cases n s with ⟨_, h⟩ | ⟨_, _, h⟩ | ⟨_, _, h⟩
    · exact ⟨.eNotDone, 0x00#8, s, h, .none _ _, by simp, by simp⟩
    · exact ⟨.eRange, 0x00#8, s, h, .none _ _, by simp, by simp⟩
    · exact ⟨.ok, s.DIGEST[n.toNat], s, h, .none _ _, by simp, by simp⟩
  | _ => cases hi

/-- A command word decodes to a host command. -/
theorem decodeCommand_isCommand {w : CommandWord} {i : Instr} (h : decodeCommand w = .ok i) : i.isCommand = true := by
  simp only [decodeCommand, decodeRaw] at h
  repeat' split at h
  all_goals first | (cases h; rfl) | cases h

/-- Everything the processing of a command word can do. -/
theorem processCommand_cases (w : CommandWord) (s : State) :
    (∃ e, decodeCommand w = .error e ∧ processCommand w s = .next (respond .eIllegal 0x00#8 s)) ∨
    (∃ i c d u, decodeCommand w = .ok i ∧ i.isCommand = true ∧ processCommand w s = .next (respond c d u) ∧
      CommandEffect s i c u ∧ (c ≠ .ok → d = 0x00#8 ∧ u = s) ∧ (d ≠ 0x00#8 → i = .rdstat ∨ ∃ n, i = .rddig n)) := by
  cases h : decodeCommand w with
  | error e => exact .inl ⟨e, rfl, by simp [processCommand, h, reject_eq]⟩
  | ok i =>
    have hi := decodeCommand_isCommand h
    obtain ⟨c, d, u, hx, hr⟩ := exec_command_cases i hi s
    exact .inr ⟨i, c, d, u, rfl, hi, by simp [processCommand, h, hx], hr⟩

/-! ## The step of CORE, phase by phase -/

section
variable {s : State}

theorem coreStep_idle (h : s.PHASE = .idle) : coreStep s = .next s := by simp [coreStep, h, Phase.instr, exec, execIdle]
theorem coreStep_done (h : s.PHASE = .done) : coreStep s = .next s := by simp [coreStep, h, Phase.instr, exec, execDone]
theorem coreStep_init (h : s.PHASE = .init) :
    coreStep s =
      .next ((((s.setH IV).setNBLK (BitVec.ofNat 64 (nblocks s.LEN.toNat))).setBLK 0#64).setPHASE .pad) := by
  simp [coreStep, h, Phase.instr, exec, execInit]
theorem coreStep_pad (h : s.PHASE = .pad) : coreStep s = execPad s := by simp [coreStep, h, Phase.instr, exec]
theorem coreStep_wcopy (h : s.PHASE = .wcopy) :
    coreStep s = .next (((s.setW (copyBlock s.B s.W)).setJ 16#6).setPHASE .expand) := by
  simp [coreStep, h, Phase.instr, exec, execWcopy]
theorem coreStep_expand (h : s.PHASE = .expand) :
    coreStep s = .next (if s.J.toNat < 63 then (s.setW (expandSchedule s.W s.J)).setJ (s.J + 1#6)
      else (s.setW (expandSchedule s.W s.J)).setPHASE .ldwv) := by
  simp only [coreStep, h, Phase.instr, exec, execExpand]; split <;> rfl
theorem coreStep_ldwv (h : s.PHASE = .ldwv) :
    coreStep s = .next (((s.setV s.H).setJ 0#6).setPHASE .round) := by
  simp [coreStep, h, Phase.instr, exec, execLdwv]
theorem coreStep_round (h : s.PHASE = .round) :
    coreStep s = .next (if s.J.toNat < 63 then (s.setV (roundAt s.V s.W s.J)).setJ (s.J + 1#6)
      else (s.setV (roundAt s.V s.W s.J)).setPHASE .ffwd) := by
  simp only [coreStep, h, Phase.instr, exec, execRound]; split <;> rfl
theorem coreStep_ffwd (h : s.PHASE = .ffwd) :
    coreStep s =
      .next (((s.setH (feedForward s.H s.V)).setBLK (s.BLK + 1#64)).setPHASE (phaseAfterBlock s.BLK s.NBLK)) := by
  simp [coreStep, h, Phase.instr, exec, execFfwd]
theorem coreStep_render (h : s.PHASE = .render) :
    coreStep s = .next ((s.setDIGEST (render s.H)).setPHASE .done) := by
  simp [coreStep, h, Phase.instr, exec, execRender]

/-- Everything PAD can do: it fills the block register, or it faults. -/
theorem execPad_cases (s : State) :
    (∃ b, padBlock s = .ok b ∧ execPad s = .next ((s.setB b).setPHASE .wcopy)) ∨
    (∃ f, padBlock s = .error f ∧ execPad s = .fault f) := by
  unfold execPad
  generalize padBlock s = r
  cases r with
  | ok b => exact .inl ⟨b, rfl, rfl⟩
  | error f => exact .inr ⟨f, rfl, rfl⟩

end

/-! ## The step -/

/-- A step with a command word at the head of the inputs. -/
theorem step_command {s : State} {w : CommandWord} {rest : List Event} (h : s.inputs = .command w :: rest) :
    step s = processCommand w (s.setInputs rest) := by
  simp [step, nextEvent_cons s h, dropEvent_cons s h, stepEvent]

/-- A step in which CORE is given its turn. -/
theorem step_core {s : State} {rest : List Event} (h : s.inputs = .coreStep :: rest) :
    step s = coreStep (s.setInputs rest) := by
  simp [step, nextEvent_cons s h, dropEvent_cons s h, stepEvent]

/-- A step in which the host is silent. -/
theorem step_silent {s : State} (h : s.inputs = []) : step s = coreStep s := by
  simp [step, nextEvent_nil s h, dropEvent_nil s h, stepEvent]

/-- A step in which the platform asserts reset. -/
theorem step_reset {s : State} {rest : List Event} (h : s.inputs = .reset :: rest) :
    step s = .next (resetEvent (s.setInputs rest)) := by
  simp [step, nextEvent_cons s h, dropEvent_cons s h, stepEvent]

/-- Everything a step can do, by the event that happens. -/
theorem step_cases (s : State) :
    (nextEvent s = .coreStep ∧ step s = coreStep (dropEvent s)) ∨
    (nextEvent s = .reset ∧ step s = .next (resetEvent (dropEvent s))) ∨
    (∃ w, nextEvent s = .command w ∧ step s = processCommand w (dropEvent s)) := by
  cases h : nextEvent s <;> simp [step, h, stepEvent]

/-- Taking the event changes nothing but the inputs. -/
theorem dropEvent_eq (s : State) : dropEvent s = s.setInputs s.inputs.tail := rfl

end Sys2Proof.Machine
end

