-- ==== Sys2Proof/Laws/Frame.lean ====
section
/-! SUPPORT. Frames: a register write leaves the reads of both memories alone, and `SameBut` piece by piece. -/

namespace Sys2Proof.Machine

/-! ## Reads after a register write -/

section
variable (s : State) (a : Nat)
@[simp] theorem memRead_msg_setH (x : Vector Word 8) :
    memRead .msg a (s.setH x) = memRead .msg a s := rfl
@[simp] theorem memRead_digest_setH (x : Vector Word 8) :
    memRead .digest a (s.setH x) = memRead .digest a s := rfl
@[simp] theorem memRead_msg_setV (x : Vector Word 8) :
    memRead .msg a (s.setV x) = memRead .msg a s := rfl
@[simp] theorem memRead_digest_setV (x : Vector Word 8) :
    memRead .digest a (s.setV x) = memRead .digest a s := rfl
@[simp] theorem memRead_msg_setW (x : Vector Word 64) :
    memRead .msg a (s.setW x) = memRead .msg a s := rfl
@[simp] theorem memRead_digest_setW (x : Vector Word 64) :
    memRead .digest a (s.setW x) = memRead .digest a s := rfl
@[simp] theorem memRead_msg_setB (x : Vector Word 16) :
    memRead .msg a (s.setB x) = memRead .msg a s := rfl
@[simp] theorem memRead_digest_setB (x : Vector Word 16) :
    memRead .digest a (s.setB x) = memRead .digest a s := rfl
@[simp] theorem memRead_msg_setPHASE (x : Phase) :
    memRead .msg a (s.setPHASE x) = memRead .msg a s := rfl
@[simp] theorem memRead_digest_setPHASE (x : Phase) :
    memRead .digest a (s.setPHASE x) = memRead .digest a s := rfl
@[simp] theorem memRead_msg_setJ (x : BitVec 6) :
    memRead .msg a (s.setJ x) = memRead .msg a s := rfl
@[simp] theorem memRead_digest_setJ (x : BitVec 6) :
    memRead .digest a (s.setJ x) = memRead .digest a s := rfl
@[simp] theorem memRead_msg_setBLK (x : Word64) :
    memRead .msg a (s.setBLK x) = memRead .msg a s := rfl
@[simp] theorem memRead_digest_setBLK (x : Word64) :
    memRead .digest a (s.setBLK x) = memRead .digest a s := rfl
@[simp] theorem memRead_msg_setNBLK (x : Word64) :
    memRead .msg a (s.setNBLK x) = memRead .msg a s := rfl
@[simp] theorem memRead_digest_setNBLK (x : Word64) :
    memRead .digest a (s.setNBLK x) = memRead .digest a s := rfl
@[simp] theorem memRead_msg_setLEN (x : Word64) :
    memRead .msg a (s.setLEN x) = memRead .msg a s := rfl
@[simp] theorem memRead_digest_setLEN (x : Word64) :
    memRead .digest a (s.setLEN x) = memRead .digest a s := rfl
@[simp] theorem memRead_digest_setMSG (x : Memory) :
    memRead .digest a (s.setMSG x) = memRead .digest a s := rfl
@[simp] theorem memRead_msg_setDIGEST (x : Vector Byte 64) :
    memRead .msg a (s.setDIGEST x) = memRead .msg a s := rfl
@[simp] theorem memRead_msg_setInputs (x : List Event) :
    memRead .msg a (s.setInputs x) = memRead .msg a s := rfl
@[simp] theorem memRead_digest_setInputs (x : List Event) :
    memRead .digest a (s.setInputs x) = memRead .digest a s := rfl
@[simp] theorem memRead_msg_setResponses (x : List Response) :
    memRead .msg a (s.setResponses x) = memRead .msg a s := rfl
@[simp] theorem memRead_digest_setResponses (x : List Response) :
    memRead .digest a (s.setResponses x) = memRead .digest a s := rfl
@[simp] theorem memRead_respond (sp : Space) (c : RspCode) (d : Byte) :
    memRead sp a (respond c d s) = memRead sp a s := by cases sp <;> rfl
end

/-! ## `SameBut` -/

/-- `SameBut`, one conjunct for each piece of State. -/
theorem sameBut_iff (l : List Field) (s t : State) :
    SameBut l s t ↔
      (.H ∉ l → t.H = s.H) ∧ (.V ∉ l → t.V = s.V) ∧ (.W ∉ l → t.W = s.W) ∧ (.B ∉ l → t.B = s.B) ∧
      (.PHASE ∉ l → t.PHASE = s.PHASE) ∧ (.J ∉ l → t.J = s.J) ∧ (.BLK ∉ l → t.BLK = s.BLK) ∧
      (.NBLK ∉ l → t.NBLK = s.NBLK) ∧ (.LEN ∉ l → t.LEN = s.LEN) ∧
      (.MSG ∉ l → ∀ a, memRead .msg a t = memRead .msg a s) ∧
      (.DIGEST ∉ l → ∀ a, memRead .digest a t = memRead .digest a s) ∧
      (.msgCap ∉ l → t.msgCap = s.msgCap) ∧ (.inputs ∉ l → t.inputs = s.inputs) ∧
      (.responses ∉ l → t.responses = s.responses) := by
  constructor
  · intro h
    exact ⟨h .H, h .V, h .W, h .B, h .PHASE, h .J, h .BLK, h .NBLK, h .LEN, h .MSG, h .DIGEST, h .msgCap, h .inputs,
      h .responses⟩
  · rintro ⟨h1, h2, h3, h4, h5, h6, h7, h8, h9, h10, h11, h12, h13, h14⟩ f hf
    cases f
    · exact h1 hf
    · exact h2 hf
    · exact h3 hf
    · exact h4 hf
    · exact h5 hf
    · exact h6 hf
    · exact h7 hf
    · exact h8 hf
    · exact h9 hf
    · exact h10 hf
    · exact h11 hf
    · exact h12 hf
    · exact h13 hf
    · exact h14 hf

/-- Nothing changed. -/
theorem sameBut_self (l : List Field) (s : State) : SameBut l s s := by
  rw [sameBut_iff]; simp

/-- A shorter list of changes says more. -/
theorem SameBut.mono {l l' : List Field} {s t : State} (h : SameBut l s t) (hl : l ⊆ l') : SameBut l' s t :=
  fun f hf => h f fun hm => hf (hl hm)

/-- Two steps change what either changes. -/
theorem SameBut.trans {l : List Field} {s t u : State} (h : SameBut l s t) (h' : SameBut l t u) : SameBut l s u := by
  rw [sameBut_iff] at *
  refine ⟨?_, ?_, ?_, ?_, ?_, ?_, ?_, ?_, ?_, ?_, ?_, ?_, ?_, ?_⟩ <;> intro hf <;> simp_all

/-- A response changes the responses only. -/
theorem sameBut_respond (c : RspCode) (d : Byte) (s : State) : SameBut [.responses] s (respond c d s) := by
  rw [sameBut_iff]; simp

/-- A rejection is `Rejected`. -/
theorem rejected_respond (c : RspCode) (s : State) : Rejected c.bits s (respond c 0x00#8 s) :=
  ⟨rfl, sameBut_respond c _ s⟩

end Sys2Proof.Machine
end

