-- ==== Sys2Proof/Laws/Padding.lean ====
section
/-! SUPPORT. What PAD does, said once: with the message bytes of the block readable it fills the block register with the
padded bytes, and otherwise it faults with the fault of one of those reads. Cite these lemmas; a tactic that unfolds
`padBlock` unfolds sixteen words. -/

namespace Sys2Proof.Machine

/-- R62: the length field is exact where the bit length fits it (R29 makes it fit in every state a run reaches). -/
theorem bitLength_of_fits {len : Nat} (h : 8 * len < 2 ^ 64) : bitLength len = BitVec.ofNat 64 (8 * len) :=
  if_pos h

/-- R121: the four cases, the message bytes given by a function. -/
def paddedByteOf (m : Nat → Byte) (len n i : Nat) : Byte :=
  if i < len then m i
  else if i = len then 0x80#8
  else if i < 64 * n - 8 then 0x00#8
  else if i < 64 * n then byte64 (bitLength len) (i - (64 * n - 8))
  else Config.unstatedPaddedByte len n i

/-- R61: word `t` of block `blk`. -/
def paddedWordOf (m : Nat → Byte) (len n blk t : Nat) : Word :=
  be32 (paddedByteOf m len n (64 * blk + 4 * t)) (paddedByteOf m len n (64 * blk + 4 * t + 1))
    (paddedByteOf m len n (64 * blk + 4 * t + 2)) (paddedByteOf m len n (64 * blk + 4 * t + 3))

theorem paddedByte_ok {r : Nat → Except Fault Byte} {m : Nat → Byte} {len n i : Nat} (h : i < len → r i = .ok (m i)) :
    paddedByte r len n i = .ok (paddedByteOf m len n i) := by
  simp only [paddedByte, paddedByteOf]
  split
  · next h1 => exact h h1
  · repeat' split
    all_goals rfl

/-- A padded byte faults only with the fault of the message byte it reads, below `len`. -/
theorem paddedByte_error {r : Nat → Except Fault Byte} {len n i : Nat} {f : Fault} :
    paddedByte r len n i = .error f ↔ i < len ∧ r i = .error f := by
  simp only [paddedByte]
  split
  · next h1 => simp [h1]
  · next h1 => repeat' split
               all_goals simp [h1]

theorem paddedWord_ok {r : Nat → Except Fault Byte} {m : Nat → Byte} {len n blk t : Nat} (ht : t < 16)
    (h : ∀ i, 64 * blk ≤ i → i < len → i < 64 * blk + 64 → r i = .ok (m i)) :
    paddedWord r len n blk t = .ok (paddedWordOf m len n blk t) := by
  simp only [paddedWord, paddedWordOf]
  rw [paddedByte_ok fun hl => h _ (by omega) hl (by omega), paddedByte_ok fun hl => h _ (by omega) hl (by omega),
    paddedByte_ok fun hl => h _ (by omega) hl (by omega), paddedByte_ok fun hl => h _ (by omega) hl (by omega)]
  rfl

/-- A word faults only with the fault of one of its four bytes. -/
theorem paddedWord_error {r : Nat → Except Fault Byte} {len n blk t : Nat} {f : Fault}
    (h : paddedWord r len n blk t = .error f) :
    ∃ k, k < 4 ∧ 64 * blk + 4 * t + k < len ∧ r (64 * blk + 4 * t + k) = .error f := by
  have key : ∀ k, paddedByte r len n (64 * blk + 4 * t + k) = .error f →
      64 * blk + 4 * t + k < len ∧ r (64 * blk + 4 * t + k) = .error f := fun k hk => paddedByte_error.mp hk
  simp only [paddedWord] at h
  cases h0 : paddedByte r len n (64 * blk + 4 * t) with
  | error e =>
    rw [h0] at h
    injection h with h
    exact ⟨0, by omega, key 0 (h ▸ h0)⟩
  | ok b0 =>
    cases h1 : paddedByte r len n (64 * blk + 4 * t + 1) with
    | error e =>
      rw [h0, h1] at h
      injection h with h
      exact ⟨1, by omega, key 1 (h ▸ h1)⟩
    | ok b1 =>
      cases h2 : paddedByte r len n (64 * blk + 4 * t + 2) with
      | error e =>
        rw [h0, h1, h2] at h
        injection h with h
        exact ⟨2, by omega, key 2 (h ▸ h2)⟩
      | ok b2 =>
        cases h3 : paddedByte r len n (64 * blk + 4 * t + 3) with
        | error e =>
          rw [h0, h1, h2, h3] at h
          injection h with h
          exact ⟨3, by omega, key 3 (h ▸ h3)⟩
        | ok b3 => rw [h0, h1, h2, h3] at h; cases h

/-- With the message bytes of block `BLK` readable, the block is made of the padded bytes. -/
theorem padBlock_ok {s : State} {m : Nat → Byte}
    (h : ∀ i, 64 * s.BLK.toNat ≤ i → i < s.LEN.toNat → i < 64 * s.BLK.toNat + 64 → memRead .msg i s = .ok (m i)) :
    padBlock s = .ok (Vector.ofFn fun t => paddedWordOf m s.LEN.toNat s.NBLK.toNat s.BLK.toNat t.val) := by
  unfold padBlock
  rw [collect_ok_iff]
  intro i hi
  rw [Vector.getElem_ofFn]
  exact paddedWord_ok hi h

/-- The block faults only with the fault of a message byte of block `BLK`, below `LEN`. -/
theorem padBlock_error {s : State} {f : Fault} (h : padBlock s = .error f) :
    ∃ i, 64 * s.BLK.toNat ≤ i ∧ i < s.LEN.toNat ∧ i < 64 * s.BLK.toNat + 64 ∧ memRead .msg i s = .error f := by
  unfold padBlock at h
  obtain ⟨t, ht, hw⟩ := collect_error _ _ _ h
  obtain ⟨k, hk, hl, hr⟩ := paddedWord_error hw
  exact ⟨_, by omega, hl, by omega, hr⟩

theorem execPad_of_ok {s : State} {b : Vector Word 16} (h : padBlock s = .ok b) :
    execPad s = .next ((s.setB b).setPHASE .wcopy) := by
  unfold execPad; rw [h]

theorem execPad_of_error {s : State} {f : Fault} (h : padBlock s = .error f) : execPad s = .fault f := by
  unfold execPad; rw [h]

end Sys2Proof.Machine
end

