-- ==== Sys2Proof/Laws/Run.lean ====
section
/-! SUPPORT. Runs of several steps: one step at a time, and one run after another. -/

namespace Sys2Proof.Machine

/-- `runSteps` is the host's run of the machine. -/
theorem Laws.runSteps_eq (k : Nat) (s : State) : runSteps k s = Host.Core.run Sys2Proof.core k s := by
  induction k generalizing s with
  | zero => rfl
  | succ k ih =>
    cases h : step s with
    | next t =>
      have h' : Sys2Proof.core.step s = .next t := h
      simp only [runSteps, Host.Core.run, h, h']
      exact ih t
    | fault f =>
      have h' : Sys2Proof.core.step s = .fault f := h
      simp only [runSteps, Host.Core.run, h, h']
      rfl
    | refused r =>
      have h' : Sys2Proof.core.step s = .refused r := h
      simp only [runSteps, Host.Core.run, h, h']
      rfl

@[simp] theorem runSteps_zero (s : State) : runSteps 0 s = .next s := rfl

/-- The first step of a run. -/
theorem runSteps_next {k : Nat} {s t : State} (h : step s = .next t) : runSteps (k + 1) s = runSteps k t := by
  simp only [runSteps, h]

/-- A run of one step. -/
theorem runSteps_one {s t : State} (h : step s = .next t) : runSteps 1 s = .next t := runSteps_next h

/-- One run after another. -/
theorem runSteps_add {a : Nat} (b : Nat) {s t : State} (h : runSteps a s = .next t) :
    runSteps (a + b) s = runSteps b t := by
  induction a generalizing s with
  | zero => cases h; simp
  | succ a ih =>
    cases hs : step s with
    | next u =>
      rw [show a + 1 + b = a + b + 1 by omega, runSteps_next hs]
      exact ih (by rwa [runSteps_next hs] at h)
    | fault f => simp [runSteps, hs] at h
    | refused r => simp [runSteps, hs] at h

end Sys2Proof.Machine
end

