-- ==== Sys2Proof/Laws/HostProgram.lean ====
section
/-! SUPPORT. What the run of a host program can do, one command at a time: CORE's turns before the command are a silent
run, and the command is one `exec`. -/

namespace Sys2Proof.Machine

/-- R91: a number that fits the argument of a command is that argument (every length and address of a message that fits
`MSG_CAP` does). -/
theorem hostArg_of_fits {n : Nat} (h : n < 2 ^ 64) : hostArg n = BitVec.ofNat 64 n := if_pos h

/-- The same, as a number. -/
theorem hostArg_toNat {n : Nat} (h : n < 2 ^ 64) : (hostArg n).toNat = n := by
  rw [hostArg_of_fits h, BitVec.toNat_ofNat, Nat.mod_eq_of_lt h]

/-- PAD does not read what is still to happen. -/
theorem padBlock_setInputs (s : State) (x : List Event) : padBlock (s.setInputs x) = padBlock s := by
  simp only [padBlock, memRead_msg_setInputs, State.setInputs_LEN, State.setInputs_NBLK, State.setInputs_BLK]

/-- A turn of CORE neither reads nor changes what is still to happen, and answers nothing. -/
theorem coreStep_setInputs {s t : State} (x : List Event) (h : coreStep s = .next t) :
    coreStep (s.setInputs x) = .next (t.setInputs x) ∧ t.inputs = s.inputs ∧ t.responses = s.responses := by
  have hx : (s.setInputs x).PHASE = s.PHASE := rfl
  cases hp : s.PHASE with
  | pad =>
    rw [coreStep_pad hp] at h
    rcases execPad_cases s with ⟨b, hb, hn⟩ | ⟨f, _, hn⟩
    · rw [hn] at h
      injection h with h
      subst h
      rw [coreStep_pad (hx.trans hp), execPad_of_ok ((padBlock_setInputs s x).trans hb)]
      simp
    · rw [hn] at h; cases h
  | idle => rw [coreStep_idle hp] at h; rw [coreStep_idle (hx.trans hp)]; injection h with h; subst h; simp
  | done => rw [coreStep_done hp] at h; rw [coreStep_done (hx.trans hp)]; injection h with h; subst h; simp
  | init => rw [coreStep_init hp] at h; rw [coreStep_init (hx.trans hp)]; injection h with h; subst h; simp
  | wcopy => rw [coreStep_wcopy hp] at h; rw [coreStep_wcopy (hx.trans hp)]; injection h with h; subst h; simp
  | ldwv => rw [coreStep_ldwv hp] at h; rw [coreStep_ldwv (hx.trans hp)]; injection h with h; subst h; simp
  | ffwd => rw [coreStep_ffwd hp] at h; rw [coreStep_ffwd (hx.trans hp)]; injection h with h; subst h; simp
  | render => rw [coreStep_render hp] at h; rw [coreStep_render (hx.trans hp)]; injection h with h; subst h; simp
  | expand =>
    rw [coreStep_expand hp] at h
    rw [coreStep_expand (hx.trans hp)]
    injection h with h
    subst h
    by_cases hj : s.J.toNat < 63 <;> simp [hj]
  | round =>
    rw [coreStep_round hp] at h
    rw [coreStep_round (hx.trans hp)]
    injection h with h
    subst h
    by_cases hj : s.J.toNat < 63 <;> simp [hj]

/-- A turn of CORE stops only in a fault, and then whatever is still to happen. -/
theorem coreStep_stops {s : State} (x : List Event) (h : ∀ t, coreStep s ≠ .next t) :
    ∃ f, coreStep s = .fault f ∧ coreStep (s.setInputs x) = .fault f := by
  have hx : (s.setInputs x).PHASE = s.PHASE := rfl
  cases hp : s.PHASE with
  | pad =>
    rcases execPad_cases s with ⟨b, _, hn⟩ | ⟨f, hf, hn⟩
    · exact absurd ((coreStep_pad hp).trans hn) (h _)
    · exact ⟨f, (coreStep_pad hp).trans hn,
        (coreStep_pad (hx.trans hp)).trans (execPad_of_error ((padBlock_setInputs s x).trans hf))⟩
  | idle => exact absurd (coreStep_idle hp) (h _)
  | done => exact absurd (coreStep_done hp) (h _)
  | init => exact absurd (coreStep_init hp) (h _)
  | wcopy => exact absurd (coreStep_wcopy hp) (h _)
  | expand => exact absurd (coreStep_expand hp) (h _)
  | ldwv => exact absurd (coreStep_ldwv hp) (h _)
  | round => exact absurd (coreStep_round hp) (h _)
  | ffwd => exact absurd (coreStep_ffwd hp) (h _)
  | render => exact absurd (coreStep_render hp) (h _)

/-- A silent run of CORE goes on or faults; ahead of whatever else is to happen, CORE's turns are the same. -/
theorem runSteps_turns (n : Nat) (rest : List Event) {s : State} (hs : s.inputs = []) :
    (∃ u, runSteps n s = .next u ∧ u.inputs = [] ∧ u.responses = s.responses ∧
      ∀ k, runSteps (n + k) (s.setInputs (List.replicate n .coreStep ++ rest)) = runSteps k (u.setInputs rest)) ∨
    (∃ f, runSteps n s = .fault f ∧
      ∀ k, runSteps (n + k) (s.setInputs (List.replicate n .coreStep ++ rest)) = .fault f) := by
  induction n generalizing s with
  | zero => exact .inl ⟨s, rfl, hs, rfl, fun k => by rw [Nat.zero_add]; rfl⟩
  | succ n ih =>
    have hstep : step (s.setInputs (List.replicate (n + 1) .coreStep ++ rest)) =
        coreStep (s.setInputs (List.replicate n .coreStep ++ rest)) :=
      step_core (rest := List.replicate n .coreStep ++ rest) rfl
    by_cases hc : ∃ t, coreStep s = .next t
    · obtain ⟨t, ht⟩ := hc
      obtain ⟨hx, hti, htr⟩ := coreStep_setInputs (List.replicate n .coreStep ++ rest) ht
      have h1 := runSteps_next (k := n) ((step_silent hs).trans ht)
      have h2 : ∀ k, runSteps (n + 1 + k) (s.setInputs (List.replicate (n + 1) .coreStep ++ rest)) =
          runSteps (n + k) (t.setInputs (List.replicate n .coreStep ++ rest)) := fun k => by
        rw [show n + 1 + k = n + k + 1 by omega]
        exact runSteps_next (hstep.trans hx)
      rcases ih (hti.trans hs) with ⟨u, hu, hui, hur, hk⟩ | ⟨f, hf, hk⟩
      · exact .inl ⟨u, h1.trans hu, hui, hur.trans htr, fun k => (h2 k).trans (hk k)⟩
      · exact .inr ⟨f, h1.trans hf, fun k => (h2 k).trans (hk k)⟩
    · obtain ⟨f, hf, hx⟩ := coreStep_stops (List.replicate n .coreStep ++ rest) fun t ht => hc ⟨t, ht⟩
      refine .inr ⟨f, by simp [runSteps, step_silent hs, hf], fun k => ?_⟩
      rw [show n + 1 + k = n + k + 1 by omega]
      simp only [runSteps, hstep, hx]

/-- The command word of a host command is processed as that command. -/
theorem processCommand_encode {i : Instr} {w : CommandWord} (h : encode i = .command w) (hd : decode (encode i) = .ok i)
    (s : State) : processCommand w s = exec i s := by
  rw [h] at hd
  have hd' : decodeCommand w = .ok i := hd
  simp [processCommand, hd']

/-- Everything one line of a host program can do: CORE has its turns, as a silent run, and the command is executed in the
state they reach; or one of those turns faults. -/
theorem issueAfter_cases (turns : Nat) {op : HostOp} {w : CommandWord} (s : State) (h : encode op.instr = .command w)
    (hd : decode (encode op.instr) = .ok op.instr) :
    (∃ u, runSteps turns (s.setInputs []) = .next u ∧ u.inputs = [] ∧ u.responses = s.responses ∧
      issueAfter turns op s = exec op.instr u) ∨
    (∃ f, runSteps turns (s.setInputs []) = .fault f ∧ issueAfter turns op s = .fault f) := by
  have hi : issue op.instr = [.command w] := by simp [issue, h]
  have hs : issueAfter turns op s =
      runSteps (turns + 1) ((s.setInputs []).setInputs (List.replicate turns .coreStep ++ [.command w])) := by
    simp [issueAfter, hi]
  rcases runSteps_turns turns [.command w] (s := s.setInputs []) rfl with ⟨u, hu, hui, hur, hk⟩ | ⟨f, hf, hk⟩
  · refine .inl ⟨u, hu, hui, hur, hs.trans ((hk 1).trans ?_)⟩
    have hw : (u.setInputs [.command w]).setInputs [] = u := by rw [← hui]; rfl
    simp only [runSteps, step_command (s := u.setInputs [.command w]) (rest := []) rfl, hw, processCommand_encode h hd]
    cases exec op.instr u <;> rfl
  · exact .inr ⟨f, hf, hs.trans (hk 1)⟩

/-- A program with no line left has ended, whatever the schedule. -/
@[simp] theorem runHost_nil (turns : List Nat) (s : State) : runHost turns [] s = .finished s := by
  cases turns <;> rfl

/-- One line of a program, when the instance goes on. -/
theorem runHost_next {n : Nat} {turns : List Nat} {op : HostOp} {ops : List HostOp} {s t : State}
    (h : issueAfter n op s = .next t) : runHost (n :: turns) (op :: ops) s = runHost turns (nextOps op ops t) t := by
  simp only [runHost, h]

/-- R229: what a response to RDSTAT shows is whether CORE is done. -/
theorem sawDone_rdstat (s : State) : sawDone (respond .ok (statusByte s) s) = doneFlag s := by
  cases hp : s.PHASE <;> simp [sawDone, showsDone, RspCode.bits, statusByte, busyFlag, doneFlag, hp] <;> decide

end Sys2Proof.Machine
end

