-- ==== Sys2Proof/Laws/Invariant.lean ====
section
/-! SUPPORT. What the invariant depends on: not on the inputs and not on the responses; and a write below the capacity
keeps message memory within it. -/

namespace Sys2Proof.Machine

/-- R227: a write below the capacity keeps every listed address below it. -/
theorem memoryWithin_write (m : Memory) (a cap : Nat) (v : Byte) (ha : a < cap) (h : memoryWithin m cap = true) :
    memoryWithin (m.write a v) cap = true := by
  induction m with
  | nil => simp [Memory.write, memoryWithin, ha]
  | cons c m ih =>
    obtain ⟨x, y⟩ := c
    simp only [memoryWithin, List.all_cons, Bool.and_eq_true, decide_eq_true_eq] at *
    simp only [Memory.write]
    split
    · simp [ha, h]
    · split
      · simpa [ha] using h.2
      · simpa [h.1] using ih h.2

/-- Taking an input keeps the invariant. -/
theorem invariant_setInputs {s : State} (h : Invariant s) (x : List Event) : Invariant (s.setInputs x) :=
  ⟨h.1, h.2, h.3, h.4, h.5, h.6, h.7, h.8, h.9, h.10, h.11⟩

/-- Answering a command keeps the invariant. -/
theorem invariant_respond {s : State} (h : Invariant s) (c : RspCode) (d : Byte) : Invariant (respond c d s) :=
  ⟨h.1, h.2, h.3, h.4, h.5, h.6, h.7, h.8, h.9, h.10, h.11⟩

/-- The message in memory depends on `LEN`, `MSG` and the capacity only. -/
theorem holdsMessage_congr {m : List Byte} {s t : State} (h : HoldsMessage m s) (hl : t.LEN = s.LEN)
    (hm : t.MSG = s.MSG) (hc : t.msgCap = s.msgCap) : HoldsMessage m t :=
  ⟨hl ▸ h.1, fun i => by rw [memRead_msg_congr hm hc]; exact h.2 i⟩

/-- A byte of the message, read. -/
theorem holdsMessage_read {m : List Byte} {s : State} (h : HoldsMessage m s) (i : Nat) (hi : i < m.length) :
    memRead .msg i s = .ok (byteAt m i) := by
  simpa [byteAt, hi] using h.2 ⟨i, hi⟩

end Sys2Proof.Machine
end

