-- ==== Sys2Proof/Laws/PerInstr.lean ====
section
/-! SUPPORT. What is stated of every instruction as syntax, one lemma per constructor. -/

namespace Sys2Proof.Laws

/-- R90, R91, R94: an instruction of the host's set is encoded as a command word that selects the row of the match and
mask table with its mnemonic; any other as the code of the phase that selects it. -/
def EncodesRow.Statement (i : Instr) : Prop :=
  match encode i with
  | .command w => i.isCommand = true ∧ ∃ r ∈ commandRows, r.mnemonic = i.mnemonic ∧ r.selects w = true
  | .phase c => i.isCommand = false ∧ ∃ p, phaseOfCode c = some p ∧ p.instr = i

/-- A bit of a joined command word, field by field (R91). -/
theorem getLsbD_joinCommand (c : RawCommand) (i : Nat) :
    (joinCommand c).getLsbD i =
      if i < 64 then c.arg.getLsbD i
      else if i < 72 then c.data.getLsbD (i - 64)
      else c.op.getLsbD (i - 72) := by
  refine (BitVec.getLsbD_append (x := c.op ++ c.data) (y := c.arg)).trans ?_
  by_cases h : i < 64
  · simp [h]
  · simp only [h, if_false]
    refine (BitVec.getLsbD_append (x := c.op) (y := c.data)).trans ?_
    by_cases h' : i < 72
    · simp [h', show i - 64 < 8 by omega]
    · simp [h', show ¬ i - 64 < 8 by omega, show i - 64 - 8 = i - 72 by omega]

/-- A joined command word under a mask, field by field. -/
theorem joinCommand_and (c m : RawCommand) :
    joinCommand c &&& joinCommand m = joinCommand ⟨c.op &&& m.op, c.data &&& m.data, c.arg &&& m.arg⟩ := by
  apply BitVec.eq_of_getLsbD_eq
  intro i hi
  simp only [BitVec.getLsbD_and, getLsbD_joinCommand]
  split
  · rfl
  · split <;> rfl

theorem EncodesRow.setlen (n : Word64) : EncodesRow.Statement (.setlen n) := by
  refine ⟨rfl, ⟨"SETLEN", joinCommand ⟨0x01#8, 0x00#8, 0#64⟩, joinCommand ⟨0xFF#8, 0xFF#8, 0#64⟩⟩, by decide, rfl, ?_⟩
  simp only [CommandRow.selects, joinCommand_and, BitVec.and_zero, beq_iff_eq]
  rfl

theorem EncodesRow.wrmsg (addr : Word64) (byte : Byte) : EncodesRow.Statement (.wrmsg addr byte) := by
  refine ⟨rfl, ⟨"WRMSG", joinCommand ⟨0x02#8, 0x00#8, 0#64⟩, joinCommand ⟨0xFF#8, 0x00#8, 0#64⟩⟩, by decide, rfl, ?_⟩
  simp only [CommandRow.selects, joinCommand_and, BitVec.and_zero, beq_iff_eq]
  rfl

theorem EncodesRow.start : EncodesRow.Statement .start := by
  exact ⟨rfl, ⟨"START", 0x03000000000000000000#80, 0xFFFFFFFFFFFFFFFFFFFF#80⟩, by decide, rfl, by decide⟩

theorem EncodesRow.rdstat : EncodesRow.Statement .rdstat := by
  exact ⟨rfl, ⟨"RDSTAT", 0x04000000000000000000#80, 0xFFFFFFFFFFFFFFFFFFFF#80⟩, by decide, rfl, by decide⟩

theorem EncodesRow.rddig (i : Word64) : EncodesRow.Statement (.rddig i) := by
  refine ⟨rfl, ⟨"RDDIG", joinCommand ⟨0x05#8, 0x00#8, 0#64⟩, joinCommand ⟨0xFF#8, 0xFF#8, 0#64⟩⟩, by decide, rfl, ?_⟩
  simp only [CommandRow.selects, joinCommand_and, BitVec.and_zero, beq_iff_eq]
  rfl

theorem EncodesRow.idle : EncodesRow.Statement .idle := ⟨rfl, .idle, rfl, rfl⟩
theorem EncodesRow.init : EncodesRow.Statement .init := ⟨rfl, .init, rfl, rfl⟩
theorem EncodesRow.pad : EncodesRow.Statement .pad := ⟨rfl, .pad, rfl, rfl⟩
theorem EncodesRow.wcopy : EncodesRow.Statement .wcopy := ⟨rfl, .wcopy, rfl, rfl⟩
theorem EncodesRow.expand : EncodesRow.Statement .expand := ⟨rfl, .expand, rfl, rfl⟩
theorem EncodesRow.ldwv : EncodesRow.Statement .ldwv := ⟨rfl, .ldwv, rfl, rfl⟩
theorem EncodesRow.round : EncodesRow.Statement .round := ⟨rfl, .round, rfl, rfl⟩
theorem EncodesRow.ffwd : EncodesRow.Statement .ffwd := ⟨rfl, .ffwd, rfl, rfl⟩
theorem EncodesRow.render : EncodesRow.Statement .render := ⟨rfl, .render, rfl, rfl⟩
theorem EncodesRow.done : EncodesRow.Statement .done := ⟨rfl, .done, rfl, rfl⟩

end Sys2Proof.Laws
end

