-- ==== Sys2Proof/Laws/Schedule.lean ====
section
/-! SUPPORT. The schedule and the rounds, entry by entry: what WCOPY and EXPAND leave in each word, and one more round. -/

namespace Sys2Proof.Machine

/-- R142: WCOPY, word by word. -/
theorem getElem_copyBlock (b : Vector Word 16) (w : Vector Word 64) (t : Nat) (h : t < 64) :
    (copyBlock b w)[t] = if h : t < 16 then b[t] else w[t] := by
  simp [copyBlock]

/-- R143: EXPAND, word by word. -/
theorem getElem_expandSchedule (w : Vector Word 64) (j : BitVec 6) (t : Nat) (h : t < 64) :
    (expandSchedule w j)[t] = if j.toNat = t then nextScheduleWord w j else w[t] := by
  simp only [expandSchedule, Vector.getElem_set]

/-- R143: from `J = 16` on an index `J - k` does not wrap. -/
theorem schedWordAt_sub (w : Vector Word 64) (j : BitVec 6) (k : Nat) (hk : k ≤ 16) (h : 16 ≤ j.toNat) :
    schedWordAt w (j - BitVec.ofNat 6 k) = w[j.toNat - k]'(by have := j.isLt; omega) := by
  have : (j - BitVec.ofNat 6 k).toNat = j.toNat - k := by
    rw [BitVec.toNat_sub]
    simp only [BitVec.toNat_ofNat]
    have := j.isLt
    omega
  simp only [schedWordAt, this]

/-- R143: the word EXPAND writes, from `J = 16` on. -/
theorem nextScheduleWord_eq (w : Vector Word 64) (j : BitVec 6) (h : 16 ≤ j.toNat) :
    nextScheduleWord w j =
      scheduleWord (w[j.toNat - 16]'(by have := j.isLt; omega)) (w[j.toNat - 15]'(by have := j.isLt; omega))
        (w[j.toNat - 7]'(by have := j.isLt; omega)) (w[j.toNat - 2]'(by have := j.isLt; omega)) := by
  simp only [nextScheduleWord, schedWordAt_sub w j _ (by decide : 16 ≤ 16) h, schedWordAt_sub w j _ (by decide : 15 ≤ 16) h,
    schedWordAt_sub w j _ (by decide : 7 ≤ 16) h, schedWordAt_sub w j _ (by decide : 2 ≤ 16) h]

/-- R167: one more round. -/
theorem roundsFrom_succ (v : Vector Word 8) (w : Vector Word 64) (j : BitVec 6) :
    roundAt (roundsFrom v w j.toNat) w j = roundsFrom v w (j.toNat + 1) := by
  simp [roundsFrom]

end Sys2Proof.Machine
end

