-- ==== Sys2Proof/Tests/Slice0.lean ====
section
/-! SUPPORT. Tests of the model, their expected results taken from spec/95_test_vectors.md and the spec's worked examples,
and for each statement with hypotheses a witness that meets them. -/

namespace Sys2Proof.Tests

open Sys2Proof.Machine

/-! ## Well-formedness: each check refuses an ill-formed term -/

/-- R91: every row's example word is legal. -/
theorem test_wellformed_commands :
    commandWellFormed 0x01000000000000000003#80 = true ∧ commandWellFormed 0x02610000000000000000#80 = true ∧
    commandWellFormed 0x03000000000000000000#80 = true ∧ commandWellFormed 0x04000000000000000000#80 = true ∧
    commandWellFormed 0x0500000000000000003f#80 = true := by decide

/-- R96: reserved opcodes. -/
theorem test_reserved_opcodes_refused :
    commandWellFormed 0x00000000000000000000#80 = false ∧ commandWellFormed 0x06000000000000000000#80 = false ∧
    commandWellFormed 0xffffffffffffffffffff#80 = false := by decide

/-- R96: each must-be-zero field. -/
theorem test_must_be_zero_refused :
    commandWellFormed 0x01010000000000000003#80 = false ∧ commandWellFormed 0x03010000000000000000#80 = false ∧
    commandWellFormed 0x03000000000000000001#80 = false ∧ commandWellFormed 0x04010000000000000000#80 = false ∧
    commandWellFormed 0x04000000000000000001#80 = false ∧ commandWellFormed 0x05010000000000000040#80 = false := by
  decide

/-- R96: the unreachable phase codes. -/
theorem test_phase_codes :
    phaseCodeWellFormed 9#4 = true ∧ phaseCodeWellFormed 10#4 = false ∧ phaseCodeWellFormed 15#4 = false := by decide

/-- R6: the ranges of the two parameters. -/
theorem test_parameters :
    parametersWellFormed 0 1 = true ∧ parametersWellFormed (2 ^ 61 - 1) 7 = true ∧
    parametersWellFormed (2 ^ 61) 1 = false ∧ parametersWellFormed 0 0 = false := by decide

/-! ## Decoding: words written out from R91, R94 and V9 -/

theorem test_decode_setlen : decodeCommand 0x01000000000000000401#80 = .ok (.setlen 1025#64) := by decide
theorem test_decode_wrmsg : decodeCommand 0x027a0000000000000002#80 = .ok (.wrmsg 2#64 0x7a#8) := by decide
theorem test_decode_start : decodeCommand 0x03000000000000000000#80 = .ok .start := by decide
theorem test_decode_rdstat : decodeCommand 0x04000000000000000000#80 = .ok .rdstat := by decide
theorem test_decode_rddig : decodeCommand 0x0500ffffffffffffffff#80 = .ok (.rddig 0xffffffffffffffff#64) := by decide
theorem test_decode_idle : decodePhase 0b0000#4 = .ok .idle := by decide
theorem test_decode_init : decodePhase 0b0001#4 = .ok .init := by decide
theorem test_decode_pad : decodePhase 0b0010#4 = .ok .pad := by decide
theorem test_decode_wcopy : decodePhase 0b0011#4 = .ok .wcopy := by decide
theorem test_decode_expand : decodePhase 0b0100#4 = .ok .expand := by decide
theorem test_decode_ldwv : decodePhase 0b0101#4 = .ok .ldwv := by decide
theorem test_decode_round : decodePhase 0b0110#4 = .ok .round := by decide
theorem test_decode_ffwd : decodePhase 0b0111#4 = .ok .ffwd := by decide
theorem test_decode_render : decodePhase 0b1000#4 = .ok .render := by decide
theorem test_decode_done : decodePhase 0b1001#4 = .ok .done := by decide

/-- R96: a word is refused with the reason. -/
theorem test_decode_refusals :
    decodeCommand 0x06000000000000000000#80 = .error (.reservedOpcode 6#8) ∧
    decodeCommand 0x03000000000000000001#80 = .error (.mustBeZero 3#8) ∧
    decodePhase 12#4 = .error (.unreachablePhase 12#4) := by decide

/-- The host's view of both encodings. -/
theorem test_decodeTableWord :
    decodeTableWord 8 6 = some .round ∧ decodeTableWord 80 0x0500000000000000003f = some (.rddig 63#64) ∧
    decodeTableWord 8 10 = none ∧ decodeTableWord 80 0x00000000000000000000 = none := by decide

/-! ## States the tests start from -/

/-- `MSG_CAP = 1024`, as in V9 and P4. -/
def cap : MsgCap := ⟨1024, by decide⟩

/-- The reset state with that capacity. -/
def fresh : State := State.resetWith cap

/-- P2 after its fifth command: `abc` loaded and started. -/
def abcStarted : State :=
  { fresh with MSG := [(0, 0x61#8), (1, 0x62#8), (2, 0x63#8)], LEN := 3#64, PHASE := .init }

/-- P2: the block of `abc`. -/
def abcBlock : Vector Word 16 :=
  #v[0x61626380, 0, 0, 0, 0, 0, 0, 0, 0, 0, 0, 0, 0, 0, 0, 0x18]

/-- R166, P2: the hash state of `abc` after its FFWD. -/
def abcHash : Vector Word 8 :=
  #v[0xba7816bf, 0x8f01cfea, 0x414140de, 0x5dae2223, 0xb00361a3, 0x96177a9c, 0xb410ff61, 0xf20015ad]

/-- A state in phase `p` of the computation of the empty message that meets the invariant, for the witnesses. -/
def during (p : Phase) (j : BitVec 6) (rounds : Nat) : State :=
  { fresh with
    PHASE := p, J := j, NBLK := 1#64, H := IV, B := blockOf (padMessage []) 0, W := expand (blockOf (padMessage []) 0)
    V := roundsFrom IV (expand (blockOf (padMessage []) 0)) rounds, DIGEST := render IV }

/-- The state with this word at the command port. -/
def atPort (w : CommandWord) (s : State) : State := s.setInputs [.command w]

/-- The answer of a step, if it goes on. -/
def answer : Result → Option Response
  | .next t => t.responses.getLast?
  | _ => none

/-- The next state of a step, if there is one. -/
def after : Result → Option State
  | .next t => some t
  | _ => none

/-! ## Combinational functions -/

/-- V1: the direction of rotation, and the rows of `12345678` and `00000018`. -/
theorem test_primitives :
    rotr 1 0x00000001 = 0x80000000 ∧ rotr 31 0x12345678 = 0x2468acf0 ∧ rotr 7 0x12345678 = 0xf02468ac ∧
    shr 3 0x12345678 = 0x02468acf ∧ shr 10 0x12345678 = 0x00048d15 ∧ ssig0 0x12345678 = 0xe7fce6ee ∧
    ssig1 0x12345678 = 0xa1f78649 ∧ bsig0 0x12345678 = 0x66146474 ∧ bsig1 0x12345678 = 0x3561abda ∧
    ssig0 0x00000018 = 0x30060003 ∧ ssig1 0x00000018 = 0x000f0000 ∧ bsig0 0x00000018 = 0x00c06006 ∧
    bsig1 0x00000018 = 0x63000c00 := by decide

/-- V1: Ch, Maj and wrapping sums. -/
theorem test_ch_maj_add :
    ch 0x6a09e667 0xbb67ae85 0x3c6ef372 = 0x3e67b715 ∧ maj 0x510e527f 0x9b05688c 0x1f83d9ab = 0x1b0758af ∧
    add32 0xffffffff 0x00000001 = 0 ∧ add32 0x6a09e667 0x506e3058 = 0xba7816bf := by decide

/-- R61: the example of the rule. V2: block counts, the last row the largest length. -/
theorem test_bytes_and_blocks :
    be32 0x61 0x62 0x63 0x80 = 0x61626380 ∧ byte32 0x61626380 3 = 0x80#8 ∧
    byte64 (bitLength (2 ^ 61 - 1)) 7 = 0xf8#8 ∧ nblocks 1000 = 16 ∧ nblocks 2305843009213693951 = 36028797018963969 ∧
    zeroBytes 57 = 62 := by decide

/-- V3: the second block of 56 bytes of `0x61`, and the first block of 55. -/
theorem test_padded_blocks :
    (blockOf (padMessage (List.replicate 56 0x61#8)) 1)[0] = 0 ∧
    (blockOf (padMessage (List.replicate 56 0x61#8)) 0)[14] = 0x80000000 ∧
    (blockOf (padMessage (List.replicate 56 0x61#8)) 1)[15] = 0x1c0 ∧
    (blockOf (padMessage (List.replicate 55 0x61#8)) 0)[13] = 0x61616180 := by decide +kernel

/-! ## Host commands: the rows of V9 -/

theorem test_setlen_at_capacity :
    (after (step (atPort 0x01000000000000000400#80 fresh))).map (fun t => (t.LEN, t.responses)) =
      some (1024#64, [0x000#12]) := by decide

theorem test_setlen_above_capacity :
    (after (step (atPort 0x01000000000000000401#80 fresh))).map (fun t => (t.LEN, t.responses)) =
      some (0#64, [0x300#12]) := by decide

theorem test_wrmsg_last_address :
    (after (step (atPort 0x02ff00000000000003ff#80 fresh))).map (fun t => (t.MSG, t.responses)) =
      some ([(1023, 0xff#8)], [0x000#12]) := by decide

/-- P4 row 6: rejected while busy, and the byte stays. -/
theorem test_wrmsg_while_busy :
    (after (step (atPort 0x027a0000000000000000#80 abcStarted))).map (fun t => (t.MSG.read 0, t.responses)) =
      some (some 0x61#8, [0x200#12]) := by decide

theorem test_start_from_idle :
    (after (step (atPort 0x03000000000000000000#80 fresh))).map (fun t => (t.PHASE, t.responses)) =
      some (.init, [0x000#12]) := by decide

/-- P4 row 12: the must-be-zero field is checked before the phase. -/
theorem test_start_with_argument :
    answer (step (atPort 0x03000000000000000001#80 abcStarted)) = some 0x100#12 := by decide

/-- R229: the three status values. -/
theorem test_rdstat_values :
    answer (step (atPort 0x04000000000000000000#80 fresh)) = some 0x000#12 ∧
    answer (step (atPort 0x04000000000000000000#80 abcStarted)) = some 0x001#12 ∧
    answer (step (atPort 0x04000000000000000000#80 (fresh.setPHASE .done))) = some 0x002#12 := by decide

/-- R230: characters 0 and 63 of the digest of `abc`, and the range check. -/
theorem test_rddig_abc :
    answer (step (atPort 0x05000000000000000000#80 ((fresh.setDIGEST (render abcHash)).setPHASE .done))) =
      some 0x062#12 ∧
    answer (step (atPort 0x0500000000000000003f#80 ((fresh.setDIGEST (render abcHash)).setPHASE .done))) =
      some 0x064#12 ∧
    answer (step (atPort 0x05000000000000000040#80 ((fresh.setDIGEST (render abcHash)).setPHASE .done))) =
      some 0x300#12 := by decide +kernel

/-- R263: the three examples of priority. -/
theorem test_priority :
    answer (step (atPort 0x01008000000000000000#80 abcStarted)) = some 0x200#12 ∧
    answer (step (atPort 0x05000000000000000040#80 fresh)) = some 0x400#12 ∧
    answer (step (atPort 0x05010000000000000040#80 fresh)) = some 0x100#12 := by decide

/-! ## Micro-operations -/

/-- R123: the example of the rule. -/
theorem test_init_abc :
    (after (exec .init abcStarted)).map (fun t => (t.H.toList, t.NBLK, t.BLK, t.PHASE)) =
      some ([0x6a09e667, 0xbb67ae85, 0x3c6ef372, 0xa54ff53a, 0x510e527f, 0x9b05688c, 0x1f83d9ab, 0x5be0cd19],
        1#64, 0#64, .pad) := by decide +kernel

/-- R124: the example of the rule. -/
theorem test_pad_abc :
    (after (exec .pad ((abcStarted.setNBLK 1#64).setPHASE .pad))).map (fun t => (t.B, t.PHASE)) =
      some (abcBlock, .wcopy) := by decide +kernel

/-- R269: a byte below `LEN` that nothing has written. -/
theorem test_pad_unwritten :
    exec .pad (((fresh.setLEN 3#64).setNBLK 1#64).setPHASE .pad) = .fault (.unwrittenMessageByte 0) := by
  unfold exec
  exact execPad_of_error (f := .unwrittenMessageByte 0) (by decide +kernel)

/-- R142: the example of the rule. -/
theorem test_wcopy_abc :
    (after (exec .wcopy (fresh.setB abcBlock))).map (fun t => (t.W[0], t.W[14], t.W[15], t.J, t.PHASE)) =
      some (0x61626380, 0, 0x18, 16#6, .expand) := by decide +kernel

/-- R143: `W[17]` of `abc`. -/
theorem test_expand_abc :
    (after (exec .expand ((fresh.setW (copyBlock abcBlock fresh.W)).setJ 17#6))).map (fun t => (t.W[17], t.J, t.PHASE)) =
      some (0x000f0000, 18#6, .idle) := by decide +kernel

/-- R143: corner case 2, at `J = 63`. -/
theorem test_expand_wraps :
    (after (exec .expand ((fresh.setW ((fresh.W.set 47 0xffffffff).set 56 0xffffffff)).setJ 63#6))).map
      (fun t => (t.W[63], t.J, t.PHASE)) = some (0xfffffffe, 63#6, .ldwv) := by decide +kernel

/-- R164: the example of the rule. -/
theorem test_ldwv_first_block :
    (after (exec .ldwv (fresh.setH IV))).map (fun t => (t.V[0], t.V[7], t.J, t.PHASE)) =
      some (0x6a09e667, 0x5be0cd19, 0#6, .round) := by decide +kernel

/-- R165, V5: the first round of `abc`. -/
theorem test_round_abc :
    (after (exec .round ((fresh.setV IV).setW (copyBlock abcBlock fresh.W)))).map (fun t => (t.V.toList, t.J)) =
      some ([0x5d6aebcd, 0x6a09e667, 0xbb67ae85, 0x3c6ef372, 0xfa2a4622, 0x510e527f, 0x9b05688c, 0x1f83d9ab], 1#6) := by
  decide +kernel

/-- R165: corner case 5. -/
theorem test_round_wraps :
    roundT1 #v[0, 0, 0, 0, 0, 0, 0, 0xffffffff] 0x428a2f98 0xffffffff = 0x428a2f96 := by decide

/-- R166, V5: the FFWD of `abc`. -/
theorem test_ffwd_abc :
    (after (exec .ffwd (((fresh.setH IV).setV #v[0x506e3058, 0xd39a2165, 0x04d24d6c, 0xb85e2ce9, 0x5ef50f24, 0xfb121210,
      0x948d25b6, 0x961f4894]).setNBLK 1#64))).map (fun t => (t.H, t.BLK, t.PHASE)) =
      some (abcHash, 1#64, .render) := by decide +kernel

/-- R166, P3 step 117: with a block left the loop goes on; corner case 4, a sum wraps. -/
theorem test_ffwd_two_blocks :
    (after (exec .ffwd (((fresh.setH (fresh.H.set 0 0xffffffff)).setV (fresh.V.set 0 1)).setNBLK 2#64))).map
      (fun t => (t.H[0], t.BLK, t.PHASE)) = some (0, 1#64, .pad) := by decide +kernel

/-- V7, last row: `0000000a000000b0 ... 90abcdef`. -/
theorem test_render_nibbles :
    (after (exec .render (fresh.setH #v[0x0000000a, 0x000000b0, 0x00000c00, 0x0000d000, 0x000e0000, 0x00f00000,
      0x01000000, 0x90abcdef]))).map (fun t => ([t.DIGEST[6], t.DIGEST[7], t.DIGEST[14], t.DIGEST[56], t.DIGEST[58],
        t.DIGEST[63]], t.PHASE)) = some ([0x30#8, 0x61#8, 0x62#8, 0x39#8, 0x61#8, 0x66#8], .done) := by decide +kernel

/-- R207, R208: nothing happens in a rest phase. -/
theorem test_rest_phases :
    (after (step fresh)).map (·.PHASE) = some .idle ∧ (after (step (fresh.setPHASE .done))).map (·.PHASE) = some .done := by
  decide

/-- P6: reset in a busy phase. -/
theorem test_reset_discards :
    (after (step (abcStarted.setInputs [.reset]))).map (fun t => (t.PHASE, t.LEN, t.MSG)) =
      some (.idle, 0#64, []) := by decide

/-- The host's placement: the very next step runs the placed row. -/
theorem test_withFetchWord :
    (after (step (State.reset.withFetchWord 8 8))).map (·.PHASE) = some .done ∧
    answer (step (State.reset.withFetchWord 80 0x05000000000000000000)) = some 0x400#12 := by decide +kernel

/-- Message memory keeps its canonical form. -/
theorem test_memory_canonical :
    Memory.write (Memory.write (Memory.write [] 5 1) 2 7) 5 9 = [(2, 7#8), (5, 9#8)] := by decide

/-! ## Witnesses: for each statement with hypotheses, a state and operands that meet them -/

/-- Every state `during p j rounds` of the computation of the empty message meets the invariant. -/
theorem during_invariant (p : Phase) (j : BitVec 6) (rounds : Nat) (hj : p = .expand → 16 ≤ j.toNat)
    (hr : p = .round → rounds = j.toNat) (hf : p = .ffwd → rounds = 64) : Invariant (during p j rounds) where
  memWf := rfl
  memWithin := rfl
  lenWithin := by simp [during, fresh, State.resetWith]
  blkBelow _ := by simp [during, fresh, State.resetWith]
  nblkIs _ := by simp [during, fresh, State.resetWith, nblocks]
  jExpand := hj
  schedulePart _ _ _ := rfl
  scheduleWhole _ := rfl
  varsPart h := by rw [during, hr h]
  varsWhole h := by rw [during, hf h]
  digestHex _ n := by
    have key : ∀ n : Fin 64, isHexCode (render IV)[n] = true := by decide +kernel
    exact key n

theorem witness_EncodeInvertsDecode :
    decode (.command 0x02610000000000000001#80) = .ok (.wrmsg 1#64 0x61#8) ∧ decode (.phase 9#4) = .ok .done := by
  decide

theorem witness_SelectedRowIsDecoded :
    ∀ r ∈ commandRows, r.selects r.bits = true := by decide

theorem witness_StepRunsDecodedCommand :
    (atPort 0x03000000000000000000#80 fresh).inputs = [.command 0x03000000000000000000#80] ∧
    decode (.command 0x03000000000000000000#80) = .ok .start := by decide

theorem witness_StepRunsSelectedMicroOperation :
    decode (.phase abcStarted.PHASE.code) = .ok .init ∧ abcStarted.inputs = [] ∧
    (abcStarted.setInputs [.coreStep]).inputs = [.coreStep] := by decide

theorem witness_IllegalWordIsRejected :
    (atPort 0x06000000000000000000#80 abcStarted).inputs = [.command 0x06000000000000000000#80] ∧
    commandWellFormed 0x06000000000000000000#80 = false := by decide

/-- One witness for each code, at the boundary of its cause: the words of V9. -/
theorem witness_ResponseCodeIsTheFirstCause :
    commandWellFormed 0x04010000000000000000#80 = false ∧
    (busyFlag abcStarted = true ∧ (0x01008000000000000000#80).extractLsb' 72 8 = 0x01#8) ∧
    (doneFlag fresh = false ∧ (0x05000000000000000040#80).extractLsb' 72 8 = 0x05#8) ∧
    (busyFlag fresh = false ∧ fresh.msgCap.val < ((0x01000000000000000401#80).extractLsb' 0 64).toNat) ∧
    (busyFlag fresh = false ∧ fresh.msgCap.val ≤ ((0x02000000000000000400#80).extractLsb' 0 64).toNat) ∧
    (doneFlag (fresh.setPHASE .done) = true ∧ 63 < ((0x05000000000000000040#80).extractLsb' 0 64).toNat) ∧
    (commandWellFormed 0x02ff00000000000003ff#80 = true ∧
      ((0x02ff00000000000003ff#80).extractLsb' 0 64).toNat < fresh.msgCap.val) := by decide

theorem witness_EveryCommandGetsOneResponse :
    (atPort 0x04000000000000000000#80 fresh).inputs = [.command 0x04000000000000000000#80] := by decide

theorem witness_RejectionChangesNothing :
    ∃ t, step (atPort 0x02000000000000000400#80 fresh) = .next t ∧
      Answered 3#4 0x00#8 (atPort 0x02000000000000000400#80 fresh) t ∧ (3#4 : BitVec 4) ≠ 0#4 :=
  ⟨_, rfl, rfl, by decide⟩

theorem witness_BusyComputationIsUndisturbed :
    (atPort 0x03000000000000000000#80 abcStarted).inputs = [.command 0x03000000000000000000#80] ∧
    busyFlag (atPort 0x03000000000000000000#80 abcStarted) = true := by decide

/-- Both outcomes: START, and WRMSG. -/
theorem witness_FinishedDigestStays :
    (∃ t, step (atPort 0x03000000000000000000#80 (during .done 0#6 0)) = .next t) ∧
    (∃ t, step (atPort 0x02640000000000000002#80 (during .done 0#6 0)) = .next t) ∧
    (atPort 0x02640000000000000002#80 (during .done 0#6 0)).PHASE = .done :=
  ⟨⟨_, rfl⟩, ⟨_, rfl⟩, rfl⟩

/-- The clauses of SETLEN at the boundary: `n = MSG_CAP + 1` and `n = MSG_CAP`. -/
theorem witness_SetlenRule :
    (0x01#8 ≠ 0x00#8) ∧ busyFlag abcStarted = true ∧
    (busyFlag fresh = false ∧ fresh.msgCap.val < (1025#64).toNat) ∧ (1024#64).toNat ≤ fresh.msgCap.val := by decide

/-- The clauses of WRMSG at the boundary: `addr = MSG_CAP` and `addr = MSG_CAP - 1`. -/
theorem witness_WrmsgRule :
    busyFlag abcStarted = true ∧ (busyFlag fresh = false ∧ fresh.msgCap.val ≤ (1024#64).toNat) ∧
    (1023#64).toNat < fresh.msgCap.val := by decide

/-- The clauses of START: both must-be-zero fields, both phases it is accepted in, and a busy one. -/
theorem witness_StartRule :
    (0x01#8 ≠ 0x00#8 ∧ 1#64 ≠ 0#64) ∧ busyFlag abcStarted = true ∧ fresh.PHASE = .idle ∧
    (during .done 0#6 0).PHASE = .done := ⟨by decide, by decide, rfl, rfl⟩

theorem witness_RdstatRule : 0x01#8 ≠ 0x00#8 ∧ 1#64 ≠ 0#64 := by decide

/-- The clauses of RDDIG at the boundary: index 64 and index 63, and a state that meets the invariant. -/
theorem witness_RddigRule :
    0x01#8 ≠ 0x00#8 ∧ doneFlag fresh = false ∧ doneFlag (during .done 0#6 0) = true ∧ 63 < (64#64).toNat ∧
    (63#64).toNat ≤ 63 ∧ Invariant (during .done 0#6 0) :=
  ⟨by decide, rfl, rfl, by decide, by decide, during_invariant _ _ _ (by simp) (by simp) (by simp)⟩

theorem witness_FlagsFollowPhase : fresh.PHASE = .idle := rfl

/-- The least and the greatest amount. -/
theorem witness_RotrMovesBits : (1 ≤ 1 ∧ 1 ≤ 31) ∧ (1 ≤ 31 ∧ 31 ≤ 31) ∧ 31 < 32 := by decide

theorem witness_AddWrapsAndShiftDivides : (1 ≤ 3 ∧ 3 ≤ 31) ∧ 32 - 3 ≤ 29 := by decide

theorem witness_BigEndianBytes : 3 ≤ 3 ∧ 7 ≤ 7 ∧ 7 < 8 := by decide

theorem witness_MixingFunctionBits : 31 < 32 := by decide

/-- The clauses of the layout for the 56-byte message of V3: a message byte, a zero byte, a length byte. -/
theorem witness_PaddedMessageLayout :
    55 < (List.replicate 56 0x61#8).length ∧ (List.replicate 56 0x61#8).length < 57 ∧
    57 < 64 * nblocks (List.replicate 56 0x61#8).length - 8 ∧ 7 < 8 ∧
    ((List.replicate 56 0x61#8).length + 1 + 63) % 64 = 56 ∧ 8 * (List.replicate 56 0x61#8).length < 2 ^ 64 := by
  simp [nblocks]

theorem witness_LastBlockHoldsTheLength :
    8 * (List.replicate 56 0x61#8).length < 2 ^ 64 ∧ 56 ≤ (List.replicate 56 0x61#8).length % 64 := by simp

/-- The three message bytes of the one block of `abc` are readable; then, where the clauses meet, the first and the last
zero byte, and the first and the last byte of the length field. -/
theorem witness_PadRule :
    (∀ i, 64 * (abcStarted.setNBLK 1#64).BLK.toNat ≤ i → i < (abcStarted.setNBLK 1#64).LEN.toNat →
      i < 64 * (abcStarted.setNBLK 1#64).BLK.toNat + 64 →
      memRead .msg i (abcStarted.setNBLK 1#64) = .ok ([0x61#8, 0x62#8, 0x63#8].getD i 0)) ∧
    ((abcStarted.setNBLK 1#64).LEN.toNat < 4 ∧ 55 + 8 < 64 * (abcStarted.setNBLK 1#64).NBLK.toNat) ∧
    8 * (abcStarted.setNBLK 1#64).LEN.toNat < 2 ^ 64 ∧ 56 + 8 = 64 * (abcStarted.setNBLK 1#64).NBLK.toNat + 0 ∧
    63 + 8 = 64 * (abcStarted.setNBLK 1#64).NBLK.toNat + 7 := by
  refine ⟨fun i _ h _ => ?_, by decide⟩
  have h3 : i < 3 := h
  match i, h3 with
  | 0, _ => rfl
  | 1, _ => rfl
  | 2, _ => rfl

theorem witness_PadProducesTheBlock :
    Invariant (during .pad 0#6 0) ∧ (during .pad 0#6 0).PHASE = .pad ∧ HoldsMessage [] (during .pad 0#6 0) :=
  ⟨during_invariant _ _ _ (by simp) (by simp) (by simp), rfl, rfl, fun i => i.elim0⟩

/-- A state in phase PAD with `LEN = 1` and byte 0 never written. -/
theorem witness_PadFaultsOnUnwrittenBytesOnly :
    ∃ s f, Invariant s ∧ exec .pad s = .fault f ∧ s.MSG.read 0 = none := by
  refine ⟨((fresh.setLEN 1#64).setNBLK 1#64).setPHASE .pad, .unwrittenMessageByte 0, ?_, ?_, rfl⟩
  · constructor <;> simp [fresh, State.resetWith, phaseInBlock, Memory.wf, memoryWithin, nblocks, cap]
  · unfold exec
    exact execPad_of_error (by decide +kernel)

/-- Two states that differ in a byte above `LEN`. -/
theorem witness_PadReadsItsBlockOnly :
    (writeMsg 3 0x7a#8 abcStarted).LEN = abcStarted.LEN ∧ writeMsg 3 0x7a#8 abcStarted ≠ abcStarted ∧
    ∀ i, i < 3 → memRead .msg i (writeMsg 3 0x7a#8 abcStarted) = memRead .msg i abcStarted := by
  refine ⟨rfl, fun h => absurd (congrArg (fun s : State => s.MSG) h) (by decide), fun i h => ?_⟩
  match i, h with
  | 0, _ => rfl
  | 1, _ => rfl
  | 2, _ => rfl

theorem witness_WcopyRule : 16 ≤ (16 : Fin 64).val := by decide

/-- The least and the greatest `J` of EXPAND. -/
theorem witness_ExpandRule :
    (16 ≤ (during .expand 16#6 0).J.toNat ∧ (during .expand 16#6 0).J.toNat < 63) ∧
    (during .expand 63#6 0).J.toNat = 63 := ⟨⟨by decide, by decide⟩, by decide⟩

/-- The least and the greatest `J` of ROUND. -/
theorem witness_RoundRule : (during .round 0#6 0).J.toNat < 63 ∧ (during .round 63#6 63).J.toNat = 63 := by
  constructor <;> decide

/-- The clauses of FFWD where they meet: `BLK + 1 = NBLK - 1` and `BLK + 1 = NBLK`. -/
theorem witness_FfwdRule :
    ((during .ffwd 63#6 64).setNBLK 2#64).BLK.toNat + 1 < ((during .ffwd 63#6 64).setNBLK 2#64).NBLK.toNat ∧
    (during .ffwd 63#6 64).NBLK.toNat ≤ (during .ffwd 63#6 64).BLK.toNat + 1 ∧
    (during .ffwd 63#6 64).BLK.toNat + 1 < 2 ^ 64 := by
  refine ⟨?_, ?_, ?_⟩ <;> simp [during, fresh, State.resetWith]

theorem witness_RestPhasesWait :
    fresh.PHASE = .idle ∧ (during .done 0#6 0).PHASE = .done ∧ nextEvent fresh = .coreStep := ⟨rfl, rfl, rfl⟩

theorem witness_RenderIsInjectiveHex : (9#4).toNat ≤ 9 ∧ 10 ≤ (10#4).toNat := by decide

theorem witness_CanonicalMemoriesAreEqual :
    Memory.wf [(2, 7#8), (5, 9#8)] = true ∧ Memory.wf (Memory.write (Memory.write [] 5 9) 2 7) = true ∧
    ∀ a, Memory.read [(2, 7#8), (5, 9#8)] a = (Memory.write (Memory.write [] 5 9) 2 7).read a :=
  ⟨by decide, by decide, fun _ => rfl⟩

/-- One state for each row of the transition table, each of which meets the invariant and takes a step. -/
theorem witness_PhaseTransitionTable :
    (∀ p, p ≠ .expand → p ≠ .round → p ≠ .pad → ∃ s t, Invariant s ∧ s.PHASE = p ∧ step s = .next t) ∧
    (∀ j : BitVec 6, 16 ≤ j.toNat → ∃ s t, Invariant s ∧ s.PHASE = .expand ∧ s.J = j ∧ step s = .next t) ∧
    (∀ j : BitVec 6, ∃ s t, Invariant s ∧ s.PHASE = .round ∧ s.J = j ∧ step s = .next t) ∧
    (∃ s t, Invariant s ∧ nextEvent s = .reset ∧ step s = .next t) ∧
    (∃ s w t, Invariant s ∧ nextEvent s = .command w ∧ decodeCommand w = .ok .start ∧ step s = .next t) ∧
    (∃ s t, Invariant s ∧ s.PHASE = .pad ∧ step s = .next t) ∧
    (∃ s t, Invariant s ∧ s.PHASE = .ffwd ∧ s.BLK.toNat + 1 < s.NBLK.toNat ∧ step s = .next t ∧ t.PHASE = .pad) := by
  refine ⟨fun p h1 h2 h3 => ?_, fun j hj => ?_, fun j => ?_, ?_, ?_, ?_, ?_⟩
  · have hi : Invariant (during p 0#6 64) := during_invariant _ _ _ (by simp [h1]) (by simp [h2]) (by simp)
    refine ⟨during p 0#6 64, ?_⟩
    cases p with
    | expand => exact absurd rfl h1
    | round => exact absurd rfl h2
    | pad => exact absurd rfl h3
    | idle => exact ⟨_, hi, rfl, (step_silent rfl).trans (coreStep_idle rfl)⟩
    | init => exact ⟨_, hi, rfl, (step_silent rfl).trans (coreStep_init rfl)⟩
    | wcopy => exact ⟨_, hi, rfl, (step_silent rfl).trans (coreStep_wcopy rfl)⟩
    | ldwv => exact ⟨_, hi, rfl, (step_silent rfl).trans (coreStep_ldwv rfl)⟩
    | ffwd => exact ⟨_, hi, rfl, (step_silent rfl).trans (coreStep_ffwd rfl)⟩
    | render => exact ⟨_, hi, rfl, (step_silent rfl).trans (coreStep_render rfl)⟩
    | done => exact ⟨_, hi, rfl, (step_silent rfl).trans (coreStep_done rfl)⟩
  · exact ⟨during .expand j 0, _, during_invariant _ _ _ (fun _ => hj) (by simp) (by simp), rfl, rfl, (step_silent rfl).trans (coreStep_expand rfl)⟩
  · exact ⟨during .round j j.toNat, _, during_invariant _ _ _ (by simp) (fun _ => rfl) (by simp), rfl, rfl,
      (step_silent rfl).trans (coreStep_round rfl)⟩
  · exact ⟨(during .idle 0#6 0).setInputs [.reset], _,
      invariant_setInputs (during_invariant _ _ _ (by simp) (by simp) (by simp)) _, rfl, step_reset rfl⟩
  · exact ⟨atPort 0x03000000000000000000#80 (during .idle 0#6 0), 0x03000000000000000000#80, _,
      invariant_setInputs (during_invariant _ _ _ (by simp) (by simp) (by simp)) _, rfl, by decide, rfl⟩
  · exact ⟨during .pad 0#6 0, _, during_invariant _ _ _ (by simp) (by simp) (by simp), rfl,
      (step_silent rfl).trans ((coreStep_pad rfl).trans
        (execPad_of_ok (padBlock_ok (m := fun _ => 0) fun i _ h _ => absurd h (Nat.not_lt_zero i))))⟩
  · have h := during_invariant .ffwd 63#6 64 (by simp) (by simp) (by simp)
    refine ⟨((during .ffwd 63#6 64).setNBLK 2#64).setLEN 64#64, _, ?_, rfl, by decide,
      (step_silent rfl).trans (coreStep_ffwd rfl), rfl⟩
    exact { h with
      lenWithin := by decide
      blkBelow := fun _ => by decide
      nblkIs := fun _ => by decide }

/-- Two instances that differ in their message, one of which goes on and the other too, and not by a reset. -/
theorem witness_ControlIgnoresData :
    (writeMsg 0 0x7a#8 abcStarted).MSG ≠ abcStarted.MSG ∧ (writeMsg 0 0x7a#8 abcStarted).PHASE = abcStarted.PHASE ∧
    (∃ t, step abcStarted = .next t) ∧ (∃ t, step (writeMsg 0 0x7a#8 abcStarted) = .next t) ∧
    nextEvent abcStarted ≠ .reset :=
  ⟨by decide, rfl, ⟨_, (step_silent rfl).trans (coreStep_init rfl)⟩, ⟨_, (step_silent rfl).trans (coreStep_init rfl)⟩,
    by decide⟩

/-- A micro-operation, a SETLEN, a WRMSG and a START, each of which goes on. -/
theorem witness_EachPieceHasItsWriters :
    ((∃ t, step abcStarted = .next t) ∧ nextEvent abcStarted ≠ .reset) ∧
    (∃ t, step (atPort 0x01000000000000000003#80 fresh) = .next t ∧ t.LEN ≠ fresh.LEN) ∧
    (∃ t, step (atPort 0x02610000000000000000#80 fresh) = .next t ∧ t.MSG.read 0 ≠ fresh.MSG.read 0) ∧
    (∃ t, step (atPort 0x03000000000000000000#80 fresh) = .next t ∧ t.PHASE ≠ fresh.PHASE) :=
  ⟨⟨⟨_, (step_silent rfl).trans (coreStep_init rfl)⟩, by decide⟩, ⟨_, rfl, by decide⟩, ⟨_, rfl, by decide⟩,
    ⟨_, rfl, by decide⟩⟩

/-- Two instances in different busy phases, and two finished ones with equal digest buffers. -/
theorem witness_HostSeesFlagsAndDigestOnly :
    (busyFlag (during .round 5#6 5) = busyFlag abcStarted ∧ doneFlag (during .round 5#6 5) = doneFlag abcStarted ∧
      (during .round 5#6 5).msgCap = abcStarted.msgCap ∧ doneFlag abcStarted = false) ∧
    (doneFlag (during .done 0#6 0) = true ∧ (during .done 0#6 0).DIGEST = (during .done 9#6 3).DIGEST) :=
  ⟨⟨rfl, rfl, rfl, rfl⟩, rfl, rfl⟩

theorem witness_OnlyPadCanStop :
    step (((fresh.setLEN 1#64).setNBLK 1#64).setPHASE .pad) = .fault (.unwrittenMessageByte 0) := by
  exact (step_silent rfl).trans ((coreStep_pad rfl).trans (execPad_of_error (by decide +kernel)))

theorem witness_WrittenMessageNeverFaults :
    Invariant (during .pad 0#6 0) ∧ MessageWritten (during .pad 0#6 0) :=
  ⟨during_invariant _ _ _ (by simp) (by simp) (by simp), fun i h => absurd h (by simp [during, fresh, State.resetWith])⟩

theorem witness_ResetEventDiscards : (abcStarted.setInputs [.reset]).inputs = [.reset] := rfl

/-- `witness_PhaseTransitionTable` has one state for each phase. -/
theorem witness_StepKeepsInvariant :
    ∃ t, Invariant (during .ffwd 63#6 64) ∧ step (during .ffwd 63#6 64) = .next t :=
  ⟨_, during_invariant _ _ _ (by simp) (by simp) (by simp), (step_silent rfl).trans (coreStep_ffwd rfl)⟩

/-- A computation of the empty message in its last step: it holds its message, and reaches `DONE`. -/
theorem witness_ComputationStaysOnItsMessage :
    ∃ s t, Invariant s ∧ busyFlag s = true ∧ HoldsMessage [] s ∧ ComputesDigest [] s ∧ nextEvent s ≠ .reset ∧
      step s = .next t ∧ t.PHASE = .done := by
  refine ⟨(during .render 63#6 0).setH (hashBlocks (padMessage []) (nblocks 0)), _, ?_, rfl, ?_, ?_, by decide,
    (step_silent rfl).trans (coreStep_render rfl), rfl⟩
  · have h := during_invariant .render 63#6 0 (by simp) (by simp) (by simp)
    constructor
    · exact h.1
    · exact h.2
    · exact h.3
    all_goals (intro hp; simp [during, phaseInBlock] at hp)
  · exact ⟨rfl, fun i => i.elim0⟩
  · exact ⟨fun hp => by simp [during, phaseInBlock] at hp, fun hp => by simp [during, phaseInBlock] at hp, fun _ => rfl⟩

theorem witness_SchedulerComputesExpand : (during .wcopy 0#6 0).PHASE = .wcopy ∧ (during .wcopy 0#6 0).inputs = [] :=
  ⟨rfl, rfl⟩

theorem witness_RoundsComputeCompress : (during .ldwv 0#6 0).PHASE = .ldwv ∧ (during .ldwv 0#6 0).inputs = [] :=
  ⟨rfl, rfl⟩

/-- `abc`, loaded and started: P2 after its fifth command. -/
theorem witness_CoreComputesDigest :
    abcStarted.PHASE = .init ∧ abcStarted.inputs = [] ∧ HoldsMessage [0x61#8, 0x62#8, 0x63#8] abcStarted := by
  refine ⟨rfl, rfl, rfl, fun i => ?_⟩
  match i with
  | 0 => rfl
  | 1 => rfl
  | 2 => rfl

/-- WAIT in phase DONE ends at its first poll, and in IDLE it is still polling after two. -/
theorem witness_WaitPollsUntilDone :
    (∃ t, runHost [0, 5] [wait] (fresh.setPHASE .done) = .finished t ∧ t.responses = [0x002#12]) ∧
    ∃ t, runHost [0, 0] [wait] fresh = .pending [wait] t ∧ t.responses = [0x000#12, 0x000#12] :=
  ⟨⟨_, rfl, rfl⟩, _, rfl, rfl⟩

/-- P2: `abc`, its commands in another order, one poll at once and one after CORE's 118 steps. -/
theorem witness_TransactionReturnsDigest :
    busyFlag fresh = false ∧ [0x61#8, 0x62#8, 0x63#8].length ≤ fresh.msgCap.val ∧
    [Instr.wrmsg 2 0x63, .setlen 3, .wrmsg 0 0x61, .wrmsg 1 0x62].Perm (loadMsg [0x61#8, 0x62#8, 0x63#8]) ∧
    [0, 0, 0, 0, 0].length = [0x61#8, 0x62#8, 0x63#8].length + 2 ∧
    2 + 116 * nblocks [0x61#8, 0x62#8, 0x63#8].length ≤ [0, 118].sum ∧ 64 ≤ (List.replicate 64 0).length := by
  decide

/-- Two instances, both of which go on. -/
theorem witness_InstancesAreIndependent :
    (0 : Fin 2) ≠ 1 ∧ ∃ sk skl, systemStep (0 : Fin 2) (systemReset 2 cap) = .next sk ∧
      systemStep (1 : Fin 2) sk = .next skl :=
  ⟨by decide, _, _, rfl, rfl⟩

end Sys2Proof.Tests
end

section
/-! PROOFS. The bytes of a word (spec/00_scope.md R12) and of a 64-bit integer (R13): `be32` as an append of four bytes,
`byte32` and `byte64` as bit ranges. -/

namespace Sys2Proof.Machine

/-- The value of two joined bit vectors, the first the more significant. -/
theorem toNat_append_eq_add {m n : Nat} (x : BitVec m) (y : BitVec n) :
    (x ++ y).toNat = x.toNat * 2 ^ n + y.toNat := by
  rw [BitVec.toNat_append, ← Nat.shiftLeft_add_eq_or_of_lt y.isLt, Nat.shiftLeft_eq]

/-- R12: the value of a word assembled from four bytes. -/
theorem toNat_be32 (b0 b1 b2 b3 : Byte) :
    (be32 b0 b1 b2 b3).toNat = b0.toNat * 2 ^ 24 + b1.toNat * 2 ^ 16 + b2.toNat * 2 ^ 8 + b3.toNat := by
  have joined : (be32 b0 b1 b2 b3).toNat =
      ((b0.toNat * 2 ^ 8 + b1.toNat) * 2 ^ 8 + b2.toNat) * 2 ^ 8 + b3.toNat := by
    simp only [be32, toNat_append_eq_add]
  rw [joined]
  ring

section
variable (b0 b1 b2 b3 : Byte)

@[simp] theorem byte32_be32_zero : byte32 (be32 b0 b1 b2 b3) 0 = b0 :=
  calc byte32 (be32 b0 b1 b2 b3) 0
    _ = ((b0 ++ b1) ++ b2).extractLsb' 16 8 := BitVec.extractLsb'_append_eq_of_le (by decide)
    _ = (b0 ++ b1).extractLsb' 8 8 := BitVec.extractLsb'_append_eq_of_le (by decide)
    _ = b0 := BitVec.extractLsb'_append_eq_left

@[simp] theorem byte32_be32_one : byte32 (be32 b0 b1 b2 b3) 1 = b1 :=
  calc byte32 (be32 b0 b1 b2 b3) 1
    _ = ((b0 ++ b1) ++ b2).extractLsb' 8 8 := BitVec.extractLsb'_append_eq_of_le (by decide)
    _ = (b0 ++ b1).extractLsb' 0 8 := BitVec.extractLsb'_append_eq_of_le (by decide)
    _ = b1 := BitVec.extractLsb'_append_eq_right

@[simp] theorem byte32_be32_two : byte32 (be32 b0 b1 b2 b3) 2 = b2 :=
  calc byte32 (be32 b0 b1 b2 b3) 2
    _ = ((b0 ++ b1) ++ b2).extractLsb' 0 8 := BitVec.extractLsb'_append_eq_of_le (by decide)
    _ = b2 := BitVec.extractLsb'_append_eq_right

@[simp] theorem byte32_be32_three : byte32 (be32 b0 b1 b2 b3) 3 = b3 :=
  BitVec.extractLsb'_append_eq_right

end

/-- R12: assembling the four bytes of a word gives the word back; neighbouring bit ranges join from the top down. -/
@[simp] theorem be32_byte32 (w : Word) : be32 (byte32 w 0) (byte32 w 1) (byte32 w 2) (byte32 w 3) = w := by
  have top : byte32 w 0 ++ byte32 w 1 = w.extractLsb' 16 16 :=
    BitVec.extractLsb'_append_extractLsb'_eq_extractLsb' rfl
  have upper : w.extractLsb' 16 16 ++ byte32 w 2 = w.extractLsb' 8 24 :=
    BitVec.extractLsb'_append_extractLsb'_eq_extractLsb' rfl
  have whole : w.extractLsb' 8 24 ++ byte32 w 3 = w :=
    BitVec.extractLsb'_append_extractLsb' (w := 24) (len := 8)
  exact (congrArg (· ++ byte32 w 3) ((congrArg (· ++ byte32 w 2) top).trans upper)).trans whole

/-- R12: byte `k` of a word is its bits `31 - 8 * k` to `24 - 8 * k`. -/
theorem getLsbD_byte32 (w : Word) (k : Nat) {i : Nat} (hi : i < 8) :
    (byte32 w k).getLsbD i = w.getLsbD (24 - 8 * k + i) := by
  simp [byte32, hi]

/-- R13: byte `k` of a 64-bit integer is its bits `63 - 8 * k` to `56 - 8 * k`. -/
theorem getLsbD_byte64 (v : Word64) (k : Nat) {i : Nat} (hi : i < 8) :
    (byte64 v k).getLsbD i = v.getLsbD (56 - 8 * k + i) := by
  simp [byte64, hi]

/-- Settles O22: the value of `be32`, its two inverse laws with `byte32`, and the bit ranges of the bytes. -/
theorem bigEndianBytes : Obligations.BigEndianBytes := by
  refine ⟨fun b0 b1 b2 b3 => ⟨toNat_be32 b0 b1 b2 b3, ?_⟩, be32_byte32, ?_, ?_⟩
  · exact ⟨byte32_be32_zero b0 b1 b2 b3, byte32_be32_one b0 b1 b2 b3, byte32_be32_two b0 b1 b2 b3,
      byte32_be32_three b0 b1 b2 b3⟩
  · exact fun w k _ _ hi => getLsbD_byte32 w k hi
  · exact fun v k _ _ hi => getLsbD_byte64 v k hi

end Sys2Proof.Machine
end

section
/-! PROOFS. INIT (spec/40_preprocessor.md R123): the number of blocks of a 64-bit length (R120) fits in `NBLK`. -/

namespace Sys2Proof.Machine

/-- R120: every message has a block, the empty one too. -/
theorem one_le_nblocks (len : Nat) : 1 ≤ nblocks len := by
  unfold nblocks
  omega

/-- R28, R120: the number of blocks of a 64-bit length is a 64-bit number. -/
theorem nblocks_lt_two_pow (n : Word64) : nblocks n.toNat < 2 ^ 64 := by
  have hn := n.isLt
  unfold nblocks
  omega

/-- R123: what INIT writes to `NBLK` is the number of blocks itself, nothing of it cut off. -/
theorem toNat_ofNat_nblocks (n : Word64) : (BitVec.ofNat 64 (nblocks n.toNat)).toNat = nblocks n.toNat :=
  (BitVec.toNat_ofNat _ 64).trans (Nat.mod_eq_of_lt (nblocks_lt_two_pow n))

/-- R123: INIT as the four register writes it is. -/
theorem exec_init (s : State) :
    exec .init s = .next ((((s.setH IV).setNBLK (BitVec.ofNat 64 (nblocks s.LEN.toNat))).setBLK 0#64).setPHASE .pad) :=
  rfl

/-- R123: these four writes leave every other piece of the state alone. -/
theorem sameBut_init_writes (s : State) (h : Vector Word 8) (nblk blk : Word64) (p : Phase) :
    SameBut [.H, .NBLK, .BLK, .PHASE] s ((((s.setH h).setNBLK nblk).setBLK blk).setPHASE p) := by
  rw [sameBut_iff]
  simp

/-- Settles O29: INIT is four register writes, and the number of blocks fits in `NBLK`. -/
theorem initRule : Obligations.InitRule := by
  refine ⟨rfl, fun s => ?_⟩
  have blocks := toNat_ofNat_nblocks s.LEN
  have positive := one_le_nblocks s.LEN.toNat
  exact ⟨_, exec_init s, fun _ => rfl, blocks, blocks.symm ▸ positive, rfl, rfl, rfl, sameBut_init_writes s _ _ _ _⟩

end Sys2Proof.Machine
end

section
/-! PROOFS. The Boolean functions of a round, bit by bit (spec/42_compression.md R162, R163): `ch` selects and `maj`
votes. The values the rules list for every operand follow from the bits. -/

namespace Sys2Proof.Machine

/-- R162: a bit of Ch. From bit 32 on no word has a 1, so `z` gives the 0 there. -/
theorem getLsbD_ch (x y z : Word) (i : Nat) :
    (ch x y z).getLsbD i = if x.getLsbD i then y.getLsbD i else z.getLsbD i := by
  by_cases hi : i < 32
  · simp only [ch, BitVec.getLsbD_xor, BitVec.getLsbD_and, BitVec.getLsbD_not, hi]
    cases x.getLsbD i <;> simp
  · simp [ch, Nat.le_of_not_lt hi]

/-- R163: of three bits, the xor of the pairwise ands is the majority. -/
theorem xor_pairs_eq_majority (a b c : Bool) :
    (a && b ^^ a && c ^^ b && c) = decide (2 ≤ a.toNat + b.toNat + c.toNat) := by
  decide +revert

/-- R163: a bit of Maj. -/
theorem getLsbD_maj (x y z : Word) (i : Nat) :
    (maj x y z).getLsbD i = decide (2 ≤ (x.getLsbD i).toNat + (y.getLsbD i).toNat + (z.getLsbD i).toNat) := by
  rw [← xor_pairs_eq_majority]
  simp [maj]

@[simp] theorem ch_zero (y z : Word) : ch 0 y z = z :=
  BitVec.eq_of_getLsbD_eq fun i _ => by simp [getLsbD_ch]

@[simp] theorem ch_allOnes (y z : Word) : ch 0xFFFFFFFF y z = y :=
  BitVec.eq_of_getLsbD_eq fun i hi => by
    have one : (0xFFFFFFFF : Word).getLsbD i = true := BitVec.getLsbD_allOnes.trans (decide_eq_true hi)
    rw [getLsbD_ch, if_pos one]

/-- R163: two equal votes decide. -/
@[simp] theorem maj_self (y z : Word) : maj y y z = y :=
  BitVec.eq_of_getLsbD_eq fun i _ => by
    rw [getLsbD_maj]
    cases y.getLsbD i <;> cases z.getLsbD i <;> rfl

/-- Settles O23: the bits of Ch and Maj, the values for every operand that follow from them, and the listed ones. -/
theorem chSelectsAndMajVotes : Obligations.ChSelectsAndMajVotes := by
  refine ⟨getLsbD_ch, getLsbD_maj, ?operands, ?listed⟩
  case operands => exact fun y z => ⟨ch_zero y z, ch_allOnes y z, maj_self y z⟩
  case listed => decide

end Sys2Proof.Machine
end

section
/-! PROOFS. FFWD (spec/42_compression.md R166): the eight sums of the feed-forward and the branch of the block loop. -/

namespace Sys2Proof.Machine

/-- R8: a sum of two words wraps modulo `2^32`. -/
theorem toNat_add32 (x y : Word) : (add32 x y).toNat = (x.toNat + y.toNat) % 2 ^ 32 :=
  BitVec.toNat_add x y

/-- R166: feed-forward, word by word. -/
theorem getElem_feedForward (h v : Vector Word 8) (i : Fin 8) : (feedForward h v)[i] = add32 h[i] v[i] := by
  simp [feedForward]

/-- R166: each word of the feed-forward is an exact sum modulo `2^32`. -/
theorem toNat_getElem_feedForward (h v : Vector Word 8) (i : Fin 8) :
    ((feedForward h v)[i]).toNat = ((h[i]).toNat + (v[i]).toNat) % 2 ^ 32 := by
  rw [getElem_feedForward, toNat_add32]

/-- R166: another block follows. -/
theorem phaseAfterBlock_of_lt {blk nblk : Word64} (h : blk.toNat + 1 < nblk.toNat) : phaseAfterBlock blk nblk = .pad :=
  if_pos h

/-- R166: that was the last block. -/
theorem phaseAfterBlock_of_le {blk nblk : Word64} (h : nblk.toNat ≤ blk.toNat + 1) :
    phaseAfterBlock blk nblk = .render :=
  if_neg (Nat.not_lt.mpr h)

/-- R166: FFWD as the three register writes it is. -/
theorem exec_ffwd (s : State) :
    exec .ffwd s =
      .next (((s.setH (feedForward s.H s.V)).setBLK (s.BLK + 1#64)).setPHASE (phaseAfterBlock s.BLK s.NBLK)) :=
  rfl

/-- R166: these three writes leave every other piece of the state alone. -/
theorem sameBut_ffwd_writes (s : State) (h : Vector Word 8) (blk : Word64) (p : Phase) :
    SameBut [.H, .BLK, .PHASE] s (((s.setH h).setBLK blk).setPHASE p) := by
  rw [sameBut_iff]
  simp

/-- Settles O38: FFWD is three register writes, with the sums and the two branches above. -/
theorem ffwdRule : Obligations.FfwdRule := by
  refine ⟨rfl, fun s => ⟨_, exec_ffwd s, ?sums, ?blk, ?another, ?last, sameBut_ffwd_writes s _ _ _⟩⟩
  case sums => exact toNat_getElem_feedForward s.H s.V
  case blk => exact fun fits => BitVec.toNat_add_of_lt fits
  case another => exact phaseAfterBlock_of_lt
  case last => exact phaseAfterBlock_of_le

end Sys2Proof.Machine
end

section
/-! PROOFS. What the five host commands share (spec/30_encoding.md R91, R96, spec/60_exceptions.md R262): a word is
decoded by its three fields, and each cause of a rejection ends in the one `reject`. -/

namespace Sys2Proof.Machine

/-- R91: the three fields of a command word are what it was joined from. -/
theorem splitCommand_append (op d : Byte) (a : Word64) : splitCommand ((op ++ d) ++ a) = ⟨op, d, a⟩ := by
  have opField : ((op ++ d) ++ a).extractLsb' 72 8 = op :=
    (BitVec.extractLsb'_append_eq_of_le (by decide)).trans BitVec.extractLsb'_append_eq_left
  have dataField : ((op ++ d) ++ a).extractLsb' 64 8 = d :=
    (BitVec.extractLsb'_append_eq_of_le (by decide)).trans BitVec.extractLsb'_append_eq_right
  have argField : ((op ++ d) ++ a).extractLsb' 0 64 = a := BitVec.extractLsb'_append_eq_right
  exact congr (congrArg₂ RawCommand.mk opField dataField) argField

/-- R91: a command word is decoded by its fields. -/
theorem decodeCommand_append (op d : Byte) (a : Word64) :
    decodeCommand ((op ++ d) ++ a) = decodeRaw ⟨op, d, a⟩ :=
  congrArg decodeRaw (splitCommand_append op d a)

/-- R262: an outcome that is a rejection is `Rejected` with its code. -/
theorem exists_rejected {r : Result} {s : State} (c : RspCode) (h : r = .next (reject c s)) :
    ∃ t, r = .next t ∧ Rejected c.bits s t :=
  ⟨_, h, rejected_respond c s⟩

/-- A response after some changes adds the responses to what changed. -/
theorem SameBut.then_respond {l : List Field} {s u : State} (h : SameBut l s u) (c : RspCode) (d : Byte) :
    SameBut (l ++ [.responses]) s (respond c d u) :=
  (h.mono (List.subset_append_left _ _)).trans ((sameBut_respond c d u).mono (List.subset_append_right _ _))

/-- R96, R225: a word whose fields decode to nothing is rejected with `E_ILLEGAL`. -/
theorem processCommand_append_of_error {op d : Byte} {a : Word64} {e : DecodeError}
    (h : decodeRaw ⟨op, d, a⟩ = .error e) (s : State) :
    ∃ t, processCommand ((op ++ d) ++ a) s = .next t ∧ Rejected 1#4 s t := by
  refine exists_rejected .eIllegal ?_
  rw [processCommand, decodeCommand_append, h]

end Sys2Proof.Machine
end

section
/-! PROOFS. WRMSG (spec/45_host_commands.md R227): the one byte it stores, and the order of its two rejections. -/

namespace Sys2Proof.Machine

/-- A read of message memory after a write to the same address. -/
theorem memRead_msg_writeMsg_same {a : Nat} {s : State} (v : Byte) (h : a < s.msgCap.val) :
    memRead .msg a (writeMsg a v s) = .ok v :=
  memRead_msg_ok.mpr ⟨h, Memory.read_write_same s.MSG a v⟩

/-- A write to message memory leaves the reads of every other address alone. -/
theorem memRead_msg_writeMsg_other {a b : Nat} (s : State) (v : Byte) (h : b ≠ a) :
    memRead .msg b (writeMsg a v s) = memRead .msg b s := by
  simp [memRead, Memory.read_write_other s.MSG v h]

/-- A write to message memory leaves every other piece of the state alone. -/
theorem sameBut_writeMsg (a : Nat) (v : Byte) (s : State) : SameBut [.MSG] s (writeMsg a v s) := by
  rw [sameBut_iff]
  simp

section
variable {addr : Word64} {s : State} (byte : Byte)

/-- R227: WRMSG while CORE is busy. -/
theorem exec_wrmsg_of_busy (busy : busyFlag s = true) : exec (.wrmsg addr byte) s = .next (reject .eBusy s) :=
  if_pos busy

/-- R227: WRMSG to an address that message memory does not have. -/
theorem exec_wrmsg_of_out_of_range (free : busyFlag s = false) (above : s.msgCap.val ≤ addr.toNat) :
    exec (.wrmsg addr byte) s = .next (reject .eRange s) := by
  simp [exec, execWrmsg, free, above]

/-- R227: WRMSG accepted. -/
theorem exec_wrmsg_of_in_range (free : busyFlag s = false) (below : addr.toNat < s.msgCap.val) :
    exec (.wrmsg addr byte) s = .next (respond .ok 0x00#8 (writeMsg addr.toNat byte s)) := by
  simp [exec, execWrmsg, free, below]

end

/-- Settles O15: the two rejections are the checks before the store, and the store is one write to message memory. -/
theorem wrmsgRule : Obligations.WrmsgRule := by
  refine ⟨fun byte addr => decodeCommand_append 0x02#8 byte addr, ?busy, ?range, ?accepted⟩
  case busy => exact fun addr byte s busy => exists_rejected .eBusy (exec_wrmsg_of_busy byte busy)
  case range => exact fun addr byte s free above => exists_rejected .eRange (exec_wrmsg_of_out_of_range byte free above)
  case accepted =>
    intro addr byte s free below
    refine ⟨_, exec_wrmsg_of_in_range byte free below, ?stored, ?others, rfl,
      (sameBut_writeMsg addr.toNat byte s).then_respond _ _⟩
    case stored => rw [memRead_respond, memRead_msg_writeMsg_same byte below]
    case others => exact fun a ha => by rw [memRead_respond, memRead_msg_writeMsg_other s byte ha]

end Sys2Proof.Machine
end

section
/-! PROOFS. RDDIG (spec/45_host_commands.md R230): its three rejections, and the byte it reads, which the invariant makes
a character code. -/

namespace Sys2Proof.Machine

/-- R96: RDDIG with `data` not zero decodes to nothing. -/
theorem decodeRaw_rddig_of_data_ne_zero {d : Byte} (i : Word64) (h : d ≠ 0x00#8) :
    decodeRaw ⟨0x05#8, d, i⟩ = .error (.mustBeZero 0x05#8) := by
  simp [decodeRaw, h]

section
variable {i : Word64} {s : State}

/-- R230: RDDIG before the digest is finished. -/
theorem exec_rddig_of_not_done (unfinished : doneFlag s = false) : exec (.rddig i) s = .next (reject .eNotDone s) :=
  if_pos unfinished

/-- R230: RDDIG of a character the digest does not have. -/
theorem exec_rddig_of_out_of_range (finished : doneFlag s = true) (above : 63 < i.toNat) :
    exec (.rddig i) s = .next (reject .eRange s) := by
  simp [exec, execRddig, finished, above]

/-- R230: RDDIG accepted. -/
theorem exec_rddig_of_in_range (finished : doneFlag s = true) (below : i.toNat < 64) :
    exec (.rddig i) s = .next (respond .ok s.DIGEST[i.toNat] s) := by
  simp [exec, execRddig, finished, Nat.le_of_lt_succ below, memRead_digest below]

/-- R71, R193: with `DONE = 1` the invariant makes each byte of the digest buffer a character code. -/
theorem isHexCode_digest_of_done (inv : Invariant s) (finished : doneFlag s = true) (n : Fin 64) :
    isHexCode s.DIGEST[n] = true :=
  inv.digestHex ((doneFlag_eq_true s).mp finished) n

end

/-- Settles O18: the three rejections are the checks before the read, and the answer is the byte of `DIGEST` at `i`. -/
theorem rddigRule : Obligations.RddigRule := by
  refine ⟨fun n => decodeCommand_append 0x05#8 0x00#8 n, ?mustBeZero, ?notDone, ?range, ?accepted⟩
  case mustBeZero =>
    exact fun d n s nonzero => processCommand_append_of_error (decodeRaw_rddig_of_data_ne_zero n nonzero) s
  case notDone => exact fun n s unfinished => exists_rejected .eNotDone (exec_rddig_of_not_done unfinished)
  case range => exact fun n s finished above => exists_rejected .eRange (exec_rddig_of_out_of_range finished above)
  case accepted =>
    intro n s finished below
    have index : n.toNat < 64 := Nat.lt_succ_of_le below
    exact ⟨_, _, exec_rddig_of_in_range finished index, memRead_digest index s, rfl, sameBut_respond _ _ s,
      fun inv => isHexCode_digest_of_done inv finished ⟨n.toNat, index⟩⟩

end Sys2Proof.Machine
end

section
/-! PROOFS. SETLEN (spec/45_host_commands.md R226): its three rejections, and the one register it writes. -/

namespace Sys2Proof.Machine

/-- R96: SETLEN with `data` not zero decodes to nothing. -/
theorem decodeRaw_setlen_of_data_ne_zero {d : Byte} (n : Word64) (h : d ≠ 0x00#8) :
    decodeRaw ⟨0x01#8, d, n⟩ = .error (.mustBeZero 0x01#8) := by
  simp [decodeRaw, h]

/-- A write to `LEN` leaves every other piece of the state alone, message memory included. -/
theorem sameBut_setLEN (s : State) (n : Word64) : SameBut [.LEN] s (s.setLEN n) := by
  rw [sameBut_iff]
  simp

section
variable {n : Word64} {s : State}

/-- R226: SETLEN while CORE is busy. -/
theorem exec_setlen_of_busy (busy : busyFlag s = true) : exec (.setlen n) s = .next (reject .eBusy s) :=
  if_pos busy

/-- R226: SETLEN of a length that message memory cannot hold. -/
theorem exec_setlen_of_out_of_range (free : busyFlag s = false) (above : s.msgCap.val < n.toNat) :
    exec (.setlen n) s = .next (reject .eRange s) := by
  simp [exec, execSetlen, free, above]

/-- R226: SETLEN accepted. -/
theorem exec_setlen_of_in_range (free : busyFlag s = false) (within : n.toNat ≤ s.msgCap.val) :
    exec (.setlen n) s = .next (respond .ok 0x00#8 (s.setLEN n)) := by
  simp [exec, execSetlen, free, within]

end

/-- Settles O14: the three rejections are the checks before the effect, and the effect is one write to `LEN`. -/
theorem setlenRule : Obligations.SetlenRule := by
  refine ⟨fun n => decodeCommand_append 0x01#8 0x00#8 n, ?mustBeZero, ?busy, ?range, ?accepted⟩
  case mustBeZero =>
    exact fun d n s nonzero => processCommand_append_of_error (decodeRaw_setlen_of_data_ne_zero n nonzero) s
  case busy => exact fun n s busy => exists_rejected .eBusy (exec_setlen_of_busy busy)
  case range => exact fun n s free above => exists_rejected .eRange (exec_setlen_of_out_of_range free above)
  case accepted =>
    intro n s free within
    exact ⟨_, exec_setlen_of_in_range free within, rfl, rfl, (sameBut_setLEN s n).then_respond _ _⟩

end Sys2Proof.Machine
end

section
/-! PROOFS. RDSTAT (spec/45_host_commands.md R229): the bits of the status byte, and its three values. -/

namespace Sys2Proof.Machine

/-- R96: RDSTAT with a must-be-zero field not zero decodes to nothing. -/
theorem decodeRaw_rdstat_of_field_ne_zero {d : Byte} {a : Word64} (h : d ≠ 0x00#8 ∨ a ≠ 0#64) :
    decodeRaw ⟨0x04#8, d, a⟩ = .error (.mustBeZero 0x04#8) := by
  have mustBeZero : ¬(d = 0x00#8 ∧ a = 0#64) := not_and_or.mpr h
  simp [decodeRaw, mustBeZero]

section
variable (s : State)

/-- R229: `data[0]` is `BUSY` and `data[1]` is `DONE`. -/
theorem getLsbD_statusByte_flags :
    (statusByte s).getLsbD 0 = busyFlag s ∧ (statusByte s).getLsbD 1 = doneFlag s := by
  unfold statusByte
  generalize doneFlag s = done
  generalize busyFlag s = busy
  decide +revert

/-- R229: `data[7:2]` is zero. -/
theorem getLsbD_statusByte_of_two_le {k : Nat} (h : 2 ≤ k) : (statusByte s).getLsbD k = false := by
  refine (BitVec.getLsbD_append (x := 0#6)).trans ?_
  simp [Nat.not_lt.mpr h]

/-- R229, R30: the three kinds of phase, each with its status byte. -/
theorem statusByte_cases :
    (s.PHASE = .idle ∧ busyFlag s = false ∧ statusByte s = 0x00#8) ∨
    (s.PHASE ≠ .idle ∧ s.PHASE ≠ .done ∧ busyFlag s = true ∧ statusByte s = 0x01#8) ∨
    (s.PHASE = .done ∧ busyFlag s = false ∧ statusByte s = 0x02#8) := by
  unfold statusByte busyFlag doneFlag
  generalize s.PHASE = p
  cases p <;> decide

/-- R229: the status byte is `0x00` exactly in `IDLE`, `0x01` exactly when CORE is busy, `0x02` exactly in `DONE`. -/
theorem statusByte_values :
    (statusByte s = 0x00#8 ↔ s.PHASE = .idle) ∧ (statusByte s = 0x01#8 ↔ busyFlag s = true) ∧
      (statusByte s = 0x02#8 ↔ s.PHASE = .done) := by
  rcases statusByte_cases s with ⟨phase, flag, byte⟩ | ⟨notIdle, notDone, flag, byte⟩ | ⟨phase, flag, byte⟩
  · simp [phase, flag, byte]
  · simp [notIdle, notDone, flag, byte]
  · simp [phase, flag, byte]

/-- R229: RDSTAT answers with the status byte in every state. -/
theorem exec_rdstat : exec .rdstat s = .next (respond .ok (statusByte s) s) := rfl

end

/-- Settles O17: the bits of the status byte, and its value in each of the three kinds of phase. -/
theorem rdstatRule : Obligations.RdstatRule := by
  refine ⟨decodeCommand_append 0x04#8 0x00#8 0#64, ?mustBeZero, fun s => ?answer⟩
  case mustBeZero =>
    exact fun d a s nonzero => processCommand_append_of_error (decodeRaw_rdstat_of_field_ne_zero nonzero) s
  case answer =>
    obtain ⟨busy, done⟩ := getLsbD_statusByte_flags s
    exact ⟨_, _, exec_rdstat s, rfl, sameBut_respond _ _ s, busy, done, fun _ => getLsbD_statusByte_of_two_le s,
      statusByte_values s⟩

end Sys2Proof.Machine
end

section
/-! PROOFS. Rejections (spec/60_exceptions.md R262): a command word gets one answer, the answer names its code, and with
a code other than `OK` the state behind it is the old one with the word taken. -/

namespace Sys2Proof.Machine

/-- A state that answers a command answers it with one code and one data byte. -/
theorem Answered.unique {c c' : BitVec 4} {d d' : Byte} {s t : State} (h : Answered c d s t) (h' : Answered c' d' s t) :
    c = c' ∧ d = d' :=
  responseWord_inj (List.singleton_inj.mp (List.append_cancel_left (h.symm.trans h')))

/-- The effect of a host command before its answer adds no response. -/
theorem CommandEffect.responses_eq {s u : State} {i : Instr} {c : RspCode} (h : CommandEffect s i c u) :
    u.responses = s.responses := by
  cases h <;> rfl

/-- Taking an input changes the inputs only. -/
theorem sameBut_setInputs (s : State) (x : List Event) : SameBut [.inputs] s (s.setInputs x) := by
  rw [sameBut_iff]
  simp

/-- R225: everything a step that takes a command word can do, by the code it answers with. -/
theorem step_command_answered {s : State} {w : CommandWord} {rest : List Event} (h : s.inputs = .command w :: rest) :
    ∃ c d u, step s = .next (respond c d u) ∧ Answered c.bits d s (respond c d u) ∧
      (c ≠ .ok → d = 0x00#8 ∧ u = s.setInputs rest) := by
  rw [step_command h]
  rcases processCommand_cases w (s.setInputs rest) with
    ⟨_, _, outcome⟩ | ⟨_, c, d, u, _, _, outcome, effect, rejection, _⟩
  · exact ⟨.eIllegal, 0x00#8, _, outcome, rfl, fun _ => ⟨rfl, rfl⟩⟩
  · have noResponse : u.responses = s.responses := effect.responses_eq
    exact ⟨c, d, u, outcome, congrArg (· ++ [c.bits ++ d]) noResponse, rejection⟩

/-- R262: a step that answers a command word with a code other than `OK` takes the word and adds the response. -/
theorem step_command_rejected {s t : State} {w : CommandWord} {rest : List Event} {code : BitVec 4} {data : Byte}
    (input : s.inputs = .command w :: rest) (next : step s = .next t) (answer : Answered code data s t)
    (rejected : code ≠ 0#4) : ∃ c, data = 0x00#8 ∧ t = reject c (s.setInputs rest) := by
  obtain ⟨c, d, u, outcome, answer', rejection⟩ := step_command_answered input
  obtain rfl : t = respond c d u := Host.Outcome.next.inj (next.symm.trans outcome)
  obtain ⟨rfl, rfl⟩ := answer.unique answer'
  obtain ⟨rfl, rfl⟩ := rejection fun ok => rejected (congrArg RspCode.bits ok)
  exact ⟨c, rfl, rfl⟩

/-- Settles O11: the state after a rejection is the old one with the word taken and the response added. -/
theorem rejectionChangesNothing : Obligations.RejectionChangesNothing := by
  intro s t w rest code data input next answer rejected
  obtain ⟨c, rfl, rfl⟩ := step_command_rejected input next answer rejected
  exact ⟨rfl, rfl, (sameBut_setInputs s rest).then_respond c 0x00#8, rfl, rfl, rfl⟩

end Sys2Proof.Machine
end

section
/-! PROOFS. The decoder and the encoder (spec/30_encoding.md R91, R94, R96): a word is its three fields, a phase code is
its phase, and the match and mask table says the same of the fields as the decoder does. -/

namespace Sys2Proof.Machine

/-! ## Command words -/

/-- R91: a command word is what its three fields join to. -/
theorem joinCommand_splitCommand (w : CommandWord) : joinCommand (splitCommand w) = w := by
  have upper : w.extractLsb' 72 8 ++ w.extractLsb' 64 8 = w.extractLsb' 64 16 :=
    BitVec.extractLsb'_append_extractLsb'_eq_extractLsb' rfl
  have whole : w.extractLsb' 64 16 ++ w.extractLsb' 0 64 = w :=
    BitVec.extractLsb'_append_extractLsb' (w := 16) (len := 64)
  exact (congrArg (· ++ w.extractLsb' 0 64) upper).trans whole

/-- R91: the fields of a joined word are what it was joined from. -/
theorem splitCommand_joinCommand (c : RawCommand) : splitCommand (joinCommand c) = c :=
  splitCommand_append c.op c.data c.arg

/-- R91: two joined words are equal exactly when their fields are. -/
theorem joinCommand_inj {c c' : RawCommand} : joinCommand c = joinCommand c' ↔ c = c' :=
  (Function.LeftInverse.injective splitCommand_joinCommand).eq_iff

/-- R91: fields that decode are the fields of the encoding. -/
theorem encode_of_decodeRaw {c : RawCommand} {i : Instr} (h : decodeRaw c = .ok i) :
    encode i = .command (joinCommand c) := by
  obtain ⟨op, data, arg⟩ := c
  simp only [decodeRaw] at h
  split at h
  · split at h <;> cases h
    simp_all [encode]
  · split at h
    · cases h
      simp_all [encode]
    · split at h
      · split at h <;> cases h
        simp_all [encode]
      · split at h
        · split at h <;> cases h
          simp_all [encode]
        · split at h
          · split at h <;> cases h
            simp_all [encode]
          · cases h

/-- R91: a command word that decodes is the encoding of what it decodes to. -/
theorem encode_of_decodeCommand {w : CommandWord} {i : Instr} (h : decodeCommand w = .ok i) :
    encode i = .command w := by
  rw [encode_of_decodeRaw h, joinCommand_splitCommand]

/-! ## Phase codes -/

/-- R94: the code of a phase names that phase. -/
theorem phaseOfCode_code (p : Phase) : phaseOfCode p.code = some p := by
  cases p <;> rfl

/-- R94: a phase has no code but its own. -/
theorem code_of_phaseOfCode {code : BitVec 4} {p : Phase} (h : phaseOfCode code = some p) : p.code = code := by
  decide +revert

/-- R94, R96: a code names a phase exactly when it is below 10. -/
theorem phaseOfCode_isSome (code : BitVec 4) : (phaseOfCode code).isSome = phaseCodeWellFormed code := by
  decide +revert

/-- R94: the code of a phase decodes to the row it selects. -/
theorem decodePhase_code (p : Phase) : decodePhase p.code = .ok p.instr := by
  rw [decodePhase, phaseOfCode_code]

/-- R94: the row a phase selects is encoded as the code of the phase. -/
theorem encode_instr (p : Phase) : encode p.instr = .phase p.code := by
  cases p <;> rfl

/-- R94: a code decodes exactly to the row of the phase it names. -/
theorem decodePhase_eq_ok {code : BitVec 4} {i : Instr} :
    decodePhase code = .ok i ↔ ∃ p, phaseOfCode code = some p ∧ p.instr = i := by
  rw [decodePhase]
  cases phaseOfCode code <;> simp

/-! ## Both ways round -/

/-- Settles O1: a command is decoded by its fields, and a phase code by the phase it names. -/
theorem decodeInvertsEncode : Obligations.DecodeInvertsEncode := by
  intro i
  cases i with
  | setlen n => exact decodeCommand_append 0x01#8 0x00#8 n
  | wrmsg addr byte => exact decodeCommand_append 0x02#8 byte addr
  | start => exact decodeCommand_append 0x03#8 0x00#8 0#64
  | rdstat => exact decodeCommand_append 0x04#8 0x00#8 0#64
  | rddig n => exact decodeCommand_append 0x05#8 0x00#8 n
  | idle => exact decodePhase_code .idle
  | init => exact decodePhase_code .init
  | pad => exact decodePhase_code .pad
  | wcopy => exact decodePhase_code .wcopy
  | expand => exact decodePhase_code .expand
  | ldwv => exact decodePhase_code .ldwv
  | round => exact decodePhase_code .round
  | ffwd => exact decodePhase_code .ffwd
  | render => exact decodePhase_code .render
  | done => exact decodePhase_code .done

/-- Settles O2: a command word is its fields, and a phase has one code. -/
theorem encodeInvertsDecode : Obligations.EncodeInvertsDecode := by
  intro e i h
  cases e with
  | command w => exact encode_of_decodeCommand h
  | phase code =>
    obtain ⟨p, named, rfl⟩ := decodePhase_eq_ok.mp h
    rw [encode_instr, code_of_phaseOfCode named]

/-! ## The match and mask table -/

/-- R91: a row selects a word when each field of the word, masked, is the field of the match. -/
theorem selects_joinCommand (name : String) (bits mask c : RawCommand) :
    (CommandRow.mk name (joinCommand bits) (joinCommand mask)).selects (joinCommand c) = true ↔
      c.op &&& mask.op = bits.op ∧ c.data &&& mask.data = bits.data ∧ c.arg &&& mask.arg = bits.arg := by
  obtain ⟨op, data, arg⟩ := bits
  simp only [CommandRow.selects, Laws.joinCommand_and, beq_iff_eq, joinCommand_inj, RawCommand.mk.injEq]

/-- R91: the table, its matches and masks by field. -/
theorem commandRows_eq : commandRows =
    [ ⟨"SETLEN", joinCommand ⟨0x01#8, 0x00#8, 0#64⟩, joinCommand ⟨0xFF#8, 0xFF#8, 0#64⟩⟩,
      ⟨"WRMSG", joinCommand ⟨0x02#8, 0x00#8, 0#64⟩, joinCommand ⟨0xFF#8, 0x00#8, 0#64⟩⟩,
      ⟨"START", joinCommand ⟨0x03#8, 0x00#8, 0#64⟩, joinCommand ⟨0xFF#8, 0xFF#8, BitVec.allOnes 64⟩⟩,
      ⟨"RDSTAT", joinCommand ⟨0x04#8, 0x00#8, 0#64⟩, joinCommand ⟨0xFF#8, 0xFF#8, BitVec.allOnes 64⟩⟩,
      ⟨"RDDIG", joinCommand ⟨0x05#8, 0x00#8, 0#64⟩, joinCommand ⟨0xFF#8, 0xFF#8, 0#64⟩⟩ ] := by
  decide

/-- R91: a field under a mask of ones is the field. -/
theorem byte_and_ff (b : Byte) : b &&& 0xFF#8 = b :=
  BitVec.and_allOnes

/-- R91: fields that a row of the table selects decode to an instruction of that row. -/
theorem decodeRaw_of_selects {r : CommandRow} {c : RawCommand} (hr : r ∈ commandRows)
    (h : r.selects (joinCommand c) = true) : ∃ i, decodeRaw c = .ok i ∧ i.mnemonic = r.mnemonic := by
  obtain ⟨op, data, arg⟩ := c
  rw [commandRows_eq] at hr
  simp only [List.mem_cons, List.not_mem_nil, or_false] at hr
  rcases hr with rfl | rfl | rfl | rfl | rfl <;>
    simp only [selects_joinCommand, byte_and_ff, BitVec.and_zero, BitVec.and_allOnes, and_true] at h
  case inl =>
    obtain ⟨rfl, rfl⟩ := h
    exact ⟨.setlen arg, rfl, rfl⟩
  case inr.inl =>
    subst h
    exact ⟨.wrmsg arg data, rfl, rfl⟩
  case inr.inr.inl =>
    obtain ⟨rfl, rfl, rfl⟩ := h
    exact ⟨.start, rfl, rfl⟩
  case inr.inr.inr.inl =>
    obtain ⟨rfl, rfl, rfl⟩ := h
    exact ⟨.rdstat, rfl, rfl⟩
  case inr.inr.inr.inr =>
    obtain ⟨rfl, rfl⟩ := h
    exact ⟨.rddig arg, rfl, rfl⟩

/-- Settles O4: the decoder reads the fields of a word that a row selects as that row does. -/
theorem selectedRowIsDecoded : Obligations.SelectedRowIsDecoded := by
  intro r w hr h
  rw [← joinCommand_splitCommand w] at h
  obtain ⟨i, decoded, mnemonic⟩ := decodeRaw_of_selects hr h
  exact ⟨i, decoded, mnemonic, decodeCommand_isCommand decoded⟩

/-- R91: the encoding of a host command is legal. -/
theorem commandWellFormed_of_encode {i : Instr} {w : CommandWord} (h : encode i = .command w) :
    commandWellFormed w = true := by
  have selected : ∃ r ∈ commandRows, r.selects w = true := by
    have row : Laws.EncodesRow.Statement i := by
      cases i with
      | setlen n => exact Laws.EncodesRow.setlen n
      | wrmsg addr byte => exact Laws.EncodesRow.wrmsg addr byte
      | start => exact Laws.EncodesRow.start
      | rdstat => exact Laws.EncodesRow.rdstat
      | rddig n => exact Laws.EncodesRow.rddig n
      | _ => cases h
    rw [Laws.EncodesRow.Statement, h] at row
    obtain ⟨_, r, hr, _, hs⟩ := row
    exact ⟨r, hr, hs⟩
  exact List.any_eq_true.mpr selected

/-- R91, R96: a command word is legal exactly when it decodes. -/
theorem commandWellFormed_iff (w : CommandWord) : commandWellFormed w = true ↔ ∃ i, decodeCommand w = .ok i := by
  constructor
  · intro h
    obtain ⟨r, hr, hs⟩ := List.any_eq_true.mp h
    obtain ⟨i, decoded, _⟩ := selectedRowIsDecoded r w hr hs
    exact ⟨i, decoded⟩
  · rintro ⟨i, decoded⟩
    exact commandWellFormed_of_encode (encode_of_decodeCommand decoded)

/-- Settles O3: for command words by the table, for phase codes by the phases. -/
theorem decoderAcceptsExactlyTheTable : Obligations.DecoderAcceptsExactlyTheTable := by
  intro e
  cases e with
  | command w => exact (commandWellFormed_iff w).symm
  | phase code =>
    show (∃ i, decodePhase code = .ok i) ↔ phaseCodeWellFormed code = true
    rw [← phaseOfCode_isSome, Option.isSome_iff_exists]
    constructor
    · rintro ⟨i, h⟩
      obtain ⟨p, named, _⟩ := decodePhase_eq_ok.mp h
      exact ⟨p, named⟩
    · rintro ⟨p, named⟩
      exact ⟨p.instr, decodePhase_eq_ok.mpr ⟨p, named, rfl⟩⟩

/-- Settles O5: the words are concrete. -/
theorem specWordsDecode : Obligations.SpecWordsDecode := by
  unfold Obligations.SpecWordsDecode
  decide

end Sys2Proof.Machine
end

section
/-! PROOFS. Rotations, shifts and sums (spec/00_scope.md R8 to R10), and the four mixing functions bit by bit
(spec/41_scheduler.md R140, R141, spec/42_compression.md R160, R161). -/

namespace Sys2Proof.Machine

/-- R9: a right rotation moves bit `(i + n) mod 32` to bit `i`. -/
theorem getLsbD_rotr {n : Nat} (h : 1 ≤ n ∧ n ≤ 31) (x : Word) {i : Nat} (hi : i < 32) :
    (rotr n x h).getLsbD i = x.getLsbD ((i + n) % 32) := by
  simp only [rotr, BitVec.getLsbD_or, BitVec.getLsbD_ushiftRight, BitVec.getLsbD_shiftLeft]
  by_cases wraps : i + n < 32
  · have below : i < 32 - n := by omega
    rw [Nat.mod_eq_of_lt wraps]
    simp [below, Nat.add_comm]
  · have above : ¬ i < 32 - n := by omega
    have index : (i + n) % 32 = i - (32 - n) := by omega
    have beyond : x.getLsbD (n + i) = false := BitVec.getLsbD_of_ge x _ (by omega)
    simp [hi, above, index, beyond]

/-- R9: the formula of the rule, on numbers. -/
theorem toNat_rotr {n : Nat} (h : 1 ≤ n ∧ n ≤ 31) (x : Word) :
    (rotr n x h).toNat = ((x.toNat / 2 ^ n) ||| (x.toNat * 2 ^ (32 - n))) % 2 ^ 32 := by
  have small : x.toNat / 2 ^ n < 2 ^ 32 := lt_of_le_of_lt (Nat.div_le_self _ _) x.isLt
  rw [Nat.or_mod_two_pow, Nat.mod_eq_of_lt small]
  simp only [rotr, BitVec.toNat_or, BitVec.toNat_ushiftRight, BitVec.toNat_shiftLeft, Nat.shiftRight_eq_div_pow,
    Nat.shiftLeft_eq]

/-- Settles O20: the rotation is two shifts, of which one or the other gives each bit. -/
theorem rotrMovesBits : Obligations.RotrMovesBits :=
  fun _ h x => ⟨fun _ hi => getLsbD_rotr h x hi, toNat_rotr h x⟩

/-- R10: a bit of the logical right shift, 0 above bit 31 of the operand. -/
theorem getLsbD_shr {n : Nat} (h : 1 ≤ n ∧ n ≤ 31) (x : Word) (i : Nat) :
    (shr n x h).getLsbD i = x.getLsbD (i + n) := by
  rw [shr, BitVec.getLsbD_ushiftRight, Nat.add_comm]

/-- Settles O21: a sum of words wraps, and a logical shift divides and brings in zeros. -/
theorem addWrapsAndShiftDivides : Obligations.AddWrapsAndShiftDivides := by
  refine ⟨toNat_add32, fun n h x => ⟨?divides, fun i hi => ?clears⟩⟩
  case divides => rw [shr, BitVec.toNat_ushiftRight, Nat.shiftRight_eq_div_pow]
  case clears =>
    rw [getLsbD_shr]
    exact BitVec.getLsbD_of_ge x _ (by omega)

/-- Settles O24: each mixing function is a xor of rotations and a shift, which move bits as above. -/
theorem mixingFunctionBits : Obligations.MixingFunctionBits := by
  refine ⟨fun x i hi => ⟨?ssig0, ?ssig1, ?bsig0, ?bsig1⟩, ?listed⟩
  case ssig0 => simp only [ssig0, BitVec.getLsbD_xor, getLsbD_rotr _ x hi, getLsbD_shr]
  case ssig1 => simp only [ssig1, BitVec.getLsbD_xor, getLsbD_rotr _ x hi, getLsbD_shr]
  case bsig0 => simp only [bsig0, BitVec.getLsbD_xor, getLsbD_rotr _ x hi]
  case bsig1 => simp only [bsig1, BitVec.getLsbD_xor, getLsbD_rotr _ x hi]
  case listed => decide

end Sys2Proof.Machine
end

section
/-! PROOFS. The two tables (spec/10_state.md R24, R25): each entry is the fraction of a root of a prime. -/

namespace Sys2Proof.Machine

/-- The first 64 primes, those below 312. -/
def firstPrimes : List Nat :=
  [2, 3, 5, 7, 11, 13, 17, 19, 23, 29, 31, 37, 41, 43, 47, 53, 59, 61, 67, 71, 73, 79, 83, 89, 97, 101, 103, 107, 109,
   113, 127, 131, 137, 139, 149, 151, 157, 163, 167, 173, 179, 181, 191, 193, 197, 199, 211, 223, 227, 229, 233, 239,
   241, 251, 257, 263, 269, 271, 277, 281, 283, 293, 307, 311]

/-- Below `18 ^ 2`, a number is prime when no smaller number below 18 divides it. -/
theorem prime_iff_of_lt {q : Nat} (h : q < 18 ^ 2) :
    Nat.Prime q ↔ 2 ≤ q ∧ ∀ m < 18, 2 ≤ m → m < q → ¬ m ∣ q := by
  constructor
  · intro prime
    obtain ⟨two, divisors⟩ := Nat.prime_def_lt'.mp prime
    exact ⟨two, fun m _ => divisors m⟩
  · rintro ⟨two, divisors⟩
    refine Nat.prime_def_le_sqrt.mpr ⟨two, fun m hm root => divisors m ?_ hm ?_⟩
    · exact root.trans_lt (Nat.sqrt_lt'.mpr h)
    · exact root.trans_lt (Nat.sqrt_lt_self (by omega))

theorem primes_below_312 : ((List.range 312).filter fun q => decide (Nat.Prime q)) = firstPrimes := by
  have trialDivision : ((List.range 312).filter fun q => decide (Nat.Prime q)) =
      (List.range 312).filter fun q => decide (2 ≤ q ∧ ∀ m < 18, 2 ≤ m → m < q → ¬ m ∣ q) :=
    List.filter_congr fun q hq =>
      decide_eq_decide.mpr (prime_iff_of_lt ((List.mem_range.mp hq).trans (by decide)))
  rw [trialDivision]
  decide +kernel

theorem primes_below_20 : ((List.range 20).filter fun q => decide (Nat.Prime q)) = firstPrimes.take 8 := by
  decide +kernel

/-- The `k`-th root of `p` rounded down, for the primes of the tables: none of its roots exceeds 19. -/
def integerRoot (k p : Nat) : Nat := (List.range 20).countP fun c => decide ((c + 1) ^ k ≤ p)

/-- R24, R25: the number whose 32 low bits are the entry of a table, its upper part the integer root of `p`. -/
def rootWithFraction (k p : Nat) (fraction : Word) : Nat := integerRoot k p * 2 ^ 32 + fraction.toNat

/-- The lower 32 bits of that number are the entry. -/
theorem rootWithFraction_mod (k p : Nat) (fraction : Word) :
    fraction.toNat = rootWithFraction k p fraction % 2 ^ 32 := by
  have := fraction.isLt
  unfold rootWithFraction
  omega

/-- R24: each entry of `K` completes the integer cube root of its prime to the root at 32 binary places. -/
theorem K_isCubeRoot (j : Fin 64) : ∃ p ∈ firstPrimes[j.val]?,
    rootWithFraction 3 p K[j] ^ 3 ≤ p * 2 ^ 96 ∧ p * 2 ^ 96 < (rootWithFraction 3 p K[j] + 1) ^ 3 := by
  have entry : K[j] = (kTable[j.val / 4]'(by omega))[j.val % 4]'(by omega) := Vector.getElem_ofFn _
  rw [entry]
  decide +kernel +revert

/-- R25: each entry of `IV` completes the integer square root of its prime to the root at 32 binary places. -/
theorem IV_isSquareRoot : ∀ i : Fin 8, ∃ p ∈ (firstPrimes.take 8)[i.val]?,
    rootWithFraction 2 p IV[i] ^ 2 ≤ p * 2 ^ 64 ∧ p * 2 ^ 64 < (rootWithFraction 2 p IV[i] + 1) ^ 2 := by
  decide +kernel

/-- Settles O25: the root of each prime is its integer root and the entry of the table. -/
theorem tablesAreRootFractions : Obligations.TablesAreRootFractions := by
  refine ⟨fun j => ?cube, fun i => ?square⟩
  case cube =>
    obtain ⟨p, prime, lower, upper⟩ := K_isCubeRoot j
    rw [primes_below_312]
    exact ⟨p, _, prime, lower, upper, rootWithFraction_mod 3 p K[j]⟩
  case square =>
    obtain ⟨p, prime, lower, upper⟩ := IV_isSquareRoot i
    rw [primes_below_20]
    exact ⟨p, _, prime, lower, upper, rootWithFraction_mod 2 p IV[i]⟩

end Sys2Proof.Machine
end

section
/-! PROOFS. The message schedule (spec/41_scheduler.md R142 to R144): `expand` is the one schedule of a block, and the
micro-operations WCOPY and EXPAND. -/

namespace Sys2Proof.Machine

/-! ## `expand` -/

/-- R144: a word that has been computed stays. -/
theorem getElem_expandWords_add (b : Vector Word 16) (k n t : Nat) (hk : k + n ≤ 48) (ht : t < 16 + k) :
    (expandWords b (k + n))[t] = (expandWords b k)[t] := by
  induction n with
  | zero => rfl
  | succ n ih =>
    have later : (BitVec.ofNat 6 (16 + (k + n))).toNat ≠ t := by
      rw [BitVec.toNat_ofNat]
      omega
    rw [← ih (by omega), ← Nat.add_assoc, expandWords, getElem_expandSchedule, if_neg later]

/-- R144: the words computed so far are those of the schedule. -/
theorem getElem_expand (b : Vector Word 16) (k t : Nat) (hk : k ≤ 48) (ht : t < 16 + k) :
    (expand b)[t] = (expandWords b k)[t] := by
  have stays := getElem_expandWords_add b k (48 - k) t (by omega) ht
  simpa only [expand, Nat.add_sub_cancel' hk] using stays

/-- R144: `expand` starts with the block and satisfies the recurrence. -/
theorem isSchedule_expand (b : Vector Word 16) : IsSchedule b (expand b) := by
  refine ⟨fun t => ?block, fun j hj => ?recurrence⟩
  case block =>
    rw [getElem_expand b 0 t (by omega) (by omega), expandWords, getElem_copyBlock, dif_pos t.isLt]
    rfl
  case recurrence =>
    obtain ⟨k, hk⟩ : ∃ k, j.val = 16 + k := ⟨j.val - 16, by omega⟩
    have index : (BitVec.ofNat 6 (16 + k)).toNat = j.val := by
      rw [BitVec.toNat_ofNat]
      omega
    have earlier : ∀ i, (h : i < j.val) → (expand b)[i] = (expandWords b k)[i] := fun i h =>
      getElem_expand b k i (by omega) (by omega)
    have computed : (expand b)[j] = nextScheduleWord (expandWords b k) (BitVec.ofNat 6 (16 + k)) := by
      rw [Fin.getElem_fin, getElem_expand b (k + 1) j (by omega) (by omega), expandWords, getElem_expandSchedule,
        if_pos index]
    rw [computed, nextScheduleWord_eq _ _ (by omega)]
    simp only [index]
    rw [earlier _ (by omega), earlier _ (by omega), earlier _ (by omega), earlier _ (by omega)]

/-- R143: EXPAND adds word `J` of a schedule to the words below `J`. -/
theorem expandSchedule_agrees {b : Vector Word 16} {w v : Vector Word 64} (hv : IsSchedule b v) {j : BitVec 6}
    (hj : 16 ≤ j.toNat) (agree : ∀ t : Fin 64, t.val < j.toNat → w[t] = v[t]) (t : Fin 64) (ht : t.val ≤ j.toNat) :
    (expandSchedule w j)[t] = v[t] := by
  have agree' : ∀ i, (h : i < j.toNat) → w[i] = v[i] := fun i h => agree ⟨i, by have := j.isLt; omega⟩ h
  rw [Fin.getElem_fin, getElem_expandSchedule]
  split
  · next h =>
    obtain ⟨t, bound⟩ := t
    obtain rfl : j.toNat = t := h
    rw [nextScheduleWord_eq w j hj, hv.2 ⟨j.toNat, bound⟩ hj, agree' _ (by omega), agree' _ (by omega),
      agree' _ (by omega), agree' _ (by omega)]
  · exact agree t (by omega)

/-- R144: two schedules of a block agree, word by word, each on the words before. -/
theorem IsSchedule.unique {b : Vector Word 16} {w v : Vector Word 64} (hw : IsSchedule b w) (hv : IsSchedule b v) :
    w = v := by
  have agree : ∀ t, (h : t < 64) → w[t] = v[t] := by
    intro t
    induction t using Nat.strongRecOn with
    | ind t ih =>
      intro h
      by_cases first : t < 16
      · exact (hw.1 ⟨t, first⟩).trans (hv.1 ⟨t, first⟩).symm
      · have hw' := hw.2 ⟨t, h⟩ (Nat.not_lt.mp first)
        have hv' := hv.2 ⟨t, h⟩ (Nat.not_lt.mp first)
        simp only [Fin.getElem_fin] at hw' hv'
        rw [hw', hv', ih _ (by omega) _, ih _ (by omega) _, ih _ (by omega) _, ih _ (by omega) _]
  exact Vector.ext agree

/-- Settles O55: `expand` is a schedule of the block, and there is one. -/
theorem scheduleIsUnique : Obligations.ScheduleIsUnique := by
  intro b w
  constructor
  · exact fun h => h.unique (isSchedule_expand b)
  · rintro rfl
    exact isSchedule_expand b

/-! ## WCOPY and EXPAND -/

/-- R142: after WCOPY the words below 16 are those of the schedule. -/
theorem copyBlock_agrees (b : Vector Word 16) (w : Vector Word 64) (t : Fin 64) (ht : t.val < 16) :
    (copyBlock b w)[t] = (expand b)[t] := by
  rw [Fin.getElem_fin, getElem_copyBlock, dif_pos ht]
  exact ((isSchedule_expand b).1 ⟨t, ht⟩).symm

/-- R142: the three writes of WCOPY leave every other piece of the state alone. -/
theorem sameBut_wcopy_writes (s : State) (w : Vector Word 64) (j : BitVec 6) (p : Phase) :
    SameBut [.W, .J, .PHASE] s (((s.setW w).setJ j).setPHASE p) := by
  rw [sameBut_iff]
  simp

/-- Settles O34: WCOPY is three register writes. -/
theorem wcopyRule : Obligations.WcopyRule := by
  refine ⟨rfl, fun s => ⟨_, rfl, fun i => ?block, fun i hi => ?others, rfl, rfl, sameBut_wcopy_writes s _ _ _⟩⟩
  case block => exact (getElem_copyBlock s.B s.W i.val (by omega)).trans (dif_pos i.isLt)
  case others => exact (getElem_copyBlock s.B s.W i.val i.isLt).trans (dif_neg (Nat.not_lt.mpr hi))

/-- R143: the value of a schedule word is the sum of the rule modulo `2^32`. -/
theorem toNat_scheduleWord (w16 w15 w7 w2 : Word) :
    (scheduleWord w16 w15 w7 w2).toNat =
      (w16.toNat + (ssig0 w15).toNat + w7.toNat + (ssig1 w2).toNat) % 2 ^ 32 := by
  simp only [scheduleWord, toNat_add32, Nat.mod_add_mod]

/-- R27: below 63 the index `J` is incremented without wrapping. -/
theorem toNat_succ_of_lt {j : BitVec 6} (h : j.toNat < 63) : (j + 1#6).toNat = j.toNat + 1 :=
  BitVec.toNat_add_of_lt (Nat.succ_lt_succ h)

/-- R143: EXPAND below 63. -/
theorem exec_expand_of_lt {s : State} (h : s.J.toNat < 63) :
    exec .expand s = .next ((s.setW (expandSchedule s.W s.J)).setJ (s.J + 1#6)) :=
  if_pos h

/-- R143: EXPAND at 63. -/
theorem exec_expand_of_eq {s : State} (h : s.J.toNat = 63) :
    exec .expand s = .next ((s.setW (expandSchedule s.W s.J)).setPHASE .ldwv) :=
  if_neg (by omega)

/-- R143: the two writes of EXPAND below 63 leave every other piece of the state alone. -/
theorem sameBut_expand_next (s : State) (w : Vector Word 64) (j : BitVec 6) :
    SameBut [.W, .J] s ((s.setW w).setJ j) := by
  rw [sameBut_iff]
  simp

/-- R143: the two writes of EXPAND at 63 leave every other piece of the state alone. -/
theorem sameBut_expand_last (s : State) (w : Vector Word 64) (p : Phase) :
    SameBut [.W, .PHASE] s ((s.setW w).setPHASE p) := by
  rw [sameBut_iff]
  simp

/-- Settles O35: EXPAND writes word `J` and counts, or ends the schedule. -/
theorem expandRule : Obligations.ExpandRule := by
  refine ⟨rfl, fun s hj hk => ?_⟩
  have word : ((expandSchedule s.W s.J)[s.J.toNat]).toNat =
      ((s.W[s.J.toNat - 16]).toNat + (ssig0 (s.W[s.J.toNat - 15])).toNat + (s.W[s.J.toNat - 7]).toNat +
        (ssig1 (s.W[s.J.toNat - 2])).toNat) % 2 ^ 32 := by
    rw [getElem_expandSchedule, if_pos rfl, nextScheduleWord_eq s.W s.J hj, toNat_scheduleWord]
  have others : ∀ i : Fin 64, i.val ≠ s.J.toNat → (expandSchedule s.W s.J)[i] = s.W[i] := fun i hi =>
    (getElem_expandSchedule s.W s.J i.val i.isLt).trans (if_neg hi.symm)
  rcases Nat.lt_or_eq_of_le (Nat.le_of_lt_succ hk) with below | last
  · exact ⟨_, exec_expand_of_lt below, word, others,
      fun _ => ⟨toNat_succ_of_lt below, sameBut_expand_next s _ _⟩, fun h => by omega⟩
  · exact ⟨_, exec_expand_of_eq last, word, others, fun h => by omega, fun _ => ⟨rfl, sameBut_expand_last s _ _⟩⟩

end Sys2Proof.Machine
end

section
/-! PROOFS. The rounds (spec/42_compression.md R164, R165): LDWV and ROUND. -/

namespace Sys2Proof.Machine

/-- R164: the three writes of LDWV leave every other piece of the state alone. -/
theorem sameBut_ldwv_writes (s : State) (v : Vector Word 8) (j : BitVec 6) (p : Phase) :
    SameBut [.V, .J, .PHASE] s (((s.setV v).setJ j).setPHASE p) := by
  rw [sameBut_iff]
  simp

/-- Settles O36: LDWV is three register writes. -/
theorem ldwvRule : Obligations.LdwvRule :=
  ⟨rfl, fun s => ⟨_, rfl, fun _ => rfl, rfl, rfl, sameBut_ldwv_writes s _ _ _⟩⟩

/-- R165: the value of the first temporary is the sum of the rule modulo `2^32`. -/
theorem toNat_roundT1 (v : Vector Word 8) (k w : Word) :
    (roundT1 v k w).toNat =
      ((v[7]).toNat + (bsig1 v[4]).toNat + (ch v[4] v[5] v[6]).toNat + k.toNat + w.toNat) % 2 ^ 32 := by
  simp only [roundT1, toNat_add32, Nat.mod_add_mod]

/-- R165: ROUND below 63. -/
theorem exec_round_of_lt {s : State} (h : s.J.toNat < 63) :
    exec .round s = .next ((s.setV (roundAt s.V s.W s.J)).setJ (s.J + 1#6)) :=
  if_pos h

/-- R165: ROUND at 63. -/
theorem exec_round_of_eq {s : State} (h : s.J.toNat = 63) :
    exec .round s = .next ((s.setV (roundAt s.V s.W s.J)).setPHASE .ffwd) :=
  if_neg (by omega)

/-- R165: the two writes of ROUND below 63 leave every other piece of the state alone. -/
theorem sameBut_round_next (s : State) (v : Vector Word 8) (j : BitVec 6) :
    SameBut [.V, .J] s ((s.setV v).setJ j) := by
  rw [sameBut_iff]
  simp

/-- R165: the two writes of ROUND at 63 leave every other piece of the state alone. -/
theorem sameBut_round_last (s : State) (v : Vector Word 8) (p : Phase) :
    SameBut [.V, .PHASE] s ((s.setV v).setPHASE p) := by
  rw [sameBut_iff]
  simp

/-- Settles O37: ROUND replaces the working variables by `roundVars` and counts, or ends the rounds. -/
theorem roundRule : Obligations.RoundRule := by
  refine ⟨rfl, fun s hk => ?_⟩
  have t1 := toNat_roundT1 s.V K[s.J.toNat] s.W[s.J.toNat]
  have t2 : (roundT2 s.V).toNat = _ := toNat_add32 (bsig0 s.V[0]) (maj s.V[0] s.V[1] s.V[2])
  have d := toNat_add32 s.V[3] (roundT1 s.V K[s.J.toNat] s.W[s.J.toNat])
  have a := toNat_add32 (roundT1 s.V K[s.J.toNat] s.W[s.J.toNat]) (roundT2 s.V)
  rcases Nat.lt_or_eq_of_le (Nat.le_of_lt_succ hk) with below | last
  · exact ⟨_, _, _, exec_round_of_lt below, t1, t2, rfl, rfl, rfl, d, rfl, rfl, rfl, a,
      fun _ => ⟨toNat_succ_of_lt below, sameBut_round_next s _ _⟩, fun h => by omega⟩
  · exact ⟨_, _, _, exec_round_of_eq last, t1, t2, rfl, rfl, rfl, d, rfl, rfl, rfl, a, fun h => by omega,
      fun _ => ⟨rfl, sameBut_round_last s _ _⟩⟩

end Sys2Proof.Machine
end

section
/-! PROOFS. The digest string (spec/43_digest.md R190 to R193): a character for each nibble, and back. -/

namespace Sys2Proof.Machine

/-- R192: the nibbles of byte `k` of a word are nibbles of the word. -/
theorem extractLsb'_byte32 (w : Word) (k i : Nat) (hi : i ≤ 4) :
    (byte32 w k).extractLsb' i 4 = w.extractLsb' (24 - 8 * k + i) 4 := by
  apply BitVec.eq_of_getLsbD_eq
  intro b hb
  simp only [BitVec.getLsbD_extractLsb', getLsbD_byte32 w k (show i + b < 8 by omega), Nat.add_assoc]

/-- R192: character `n` is the digit of nibble `n mod 8`, most significant first, of word `n div 8`. -/
theorem getElem_render (h : Vector Word 8) (n : Fin 64) :
    (render h)[n] = hexdigit ((h[n.val / 8]'(by omega)).extractLsb' (28 - 4 * (n.val % 8)) 4) := by
  have word : n.val / 2 / 4 = n.val / 8 := by omega
  simp only [render, Fin.getElem_fin, Vector.getElem_ofFn, digestChar, dbyte, word, extractLsb'_byte32 _ _ 4 le_rfl,
    extractLsb'_byte32 _ _ 0 (Nat.zero_le 4)]
  split
  · next even => rw [show 24 - 8 * (n.val / 2 % 4) + 4 = 28 - 4 * (n.val % 8) by omega]
  · next odd => rw [show 24 - 8 * (n.val / 2 % 4) + 0 = 28 - 4 * (n.val % 8) by omega]

/-- R192: the character of nibble `c` of word `i`. -/
theorem getElem_render_nibble (h : Vector Word 8) (i c : Fin 8) :
    (render h)[8 * i.val + c.val]'(by omega) = hexdigit (h[i].extractLsb' (28 - 4 * c.val) 4) := by
  have character := getElem_render h ⟨8 * i.val + c.val, by omega⟩
  have word : (8 * i.val + c.val) / 8 = i.val := by omega
  have nibble : (8 * i.val + c.val) % 8 = c.val := by omega
  simpa only [word, nibble, Fin.getElem_fin] using character

/-- Settles O39: each of the 64 characters is the digit of its nibble. -/
theorem renderRule : Obligations.RenderRule := by
  refine ⟨rfl, fun s => ⟨_, rfl, fun i k => ⟨?high, ?low⟩, getElem_render s.H, rfl, rfl, rfl, ?frame⟩⟩
  case high =>
    rw [extractLsb'_byte32 _ _ 4 le_rfl, show 24 - 8 * k.val + 4 = 28 - 4 * (2 * k.val) by omega]
    exact getElem_render_nibble s.H i ⟨2 * k.val, by omega⟩
  case low =>
    rw [extractLsb'_byte32 _ _ 0 (Nat.zero_le 4), show 24 - 8 * k.val + 0 = 28 - 4 * (2 * k.val + 1) by omega]
    exact getElem_render_nibble s.H i ⟨2 * k.val + 1, by omega⟩
  case frame =>
    rw [sameBut_iff]
    simp

/-- R16: each digit has its own code. -/
theorem hexdigit_inj {n n' : BitVec 4} (h : hexdigit n = hexdigit n') : n = n' := by
  decide +revert

/-- R193: a digit has one of the sixteen codes. -/
theorem isHexCode_hexdigit (n : BitVec 4) : isHexCode (hexdigit n) = true := by
  decide +revert

/-- R193: every character of a rendered state is one of the sixteen codes. -/
theorem isHexCode_render (h : Vector Word 8) (n : Fin 64) : isHexCode (render h)[n] = true := by
  rw [getElem_render]
  exact isHexCode_hexdigit _

/-- R193: a word is known from its eight nibbles. -/
theorem eq_of_nibbles_eq {w w' : Word}
    (h : ∀ c : Fin 8, w.extractLsb' (28 - 4 * c.val) 4 = w'.extractLsb' (28 - 4 * c.val) 4) : w = w' := by
  apply BitVec.eq_of_getLsbD_eq
  intro b hb
  have nibble := congrArg (·.getLsbD (b % 4)) (h ⟨7 - b / 4, by omega⟩)
  have inside : b % 4 < 4 := Nat.mod_lt b (by decide)
  have index : 28 - 4 * (7 - b / 4) + b % 4 = b := by omega
  simpa only [BitVec.getLsbD_extractLsb', inside, decide_true, Bool.true_and, index] using nibble

/-- R193: the string determines the hash state. -/
theorem render_inj {h h' : Vector Word 8} (same : render h = render h') : h = h' := by
  refine Vector.ext fun i hi => eq_of_nibbles_eq fun c => hexdigit_inj ?_
  have character := getElem_render_nibble h ⟨i, hi⟩ c
  have character' := getElem_render_nibble h' ⟨i, hi⟩ c
  simp only [same] at character
  exact character.symm.trans character'

/-- Settles O41: sixteen codes, and a nibble known from its code. -/
theorem renderIsInjectiveHex : Obligations.RenderIsInjectiveHex := by
  refine ⟨by decide, isHexCode_render, fun h h' => ⟨render_inj, fun same => same ▸ rfl⟩⟩

end Sys2Proof.Machine
end

section
/-! PROOFS. Reset (spec/10_state.md R35, spec/70_reset_and_hazards.md R290) and the rest phases (spec/44_sequencer.md
R207, R208). -/

namespace Sys2Proof.Machine

/-- Settles O49: each value stands in the definition of the reset state. -/
theorem resetLeaves : Obligations.ResetLeaves := by
  refine fun cap => ⟨rfl, rfl, rfl, rfl, fun _ => rfl, rfl, rfl, fun n k => ?_⟩
  simp [systemReset]

/-- R269: after a reset no byte of message memory is readable. -/
theorem memRead_msg_resetEvent (s : State) (a : Nat) (b : Byte) : memRead .msg a (resetEvent s) ≠ .ok b := by
  intro h
  obtain ⟨_, written⟩ := memRead_msg_ok.mp h
  cases written

/-- Settles O50: the reset event installs the reset state, and keeps the inputs, the responses and the capacity. -/
theorem resetEventDiscards : Obligations.ResetEventDiscards := fun _ _ input =>
  ⟨_, step_reset input, rfl, rfl, rfl, rfl, memRead_msg_resetEvent _, rfl, rfl, rfl⟩

/-- R205: in a rest phase a turn of CORE changes nothing. -/
theorem coreStep_rest {s : State} (h : s.PHASE = .idle ∨ s.PHASE = .done) : coreStep s = .next s :=
  h.elim coreStep_idle coreStep_done

/-- Settles O40: in a rest phase a step takes its input and changes nothing. -/
theorem restPhasesWait : Obligations.RestPhasesWait := by
  refine ⟨⟨rfl, rfl⟩, fun s => ⟨⟨s, rfl, sameBut_self _ s⟩, s, rfl, sameBut_self _ s⟩, fun s rest turn => ?_⟩
  have waits : step s = .next (dropEvent s) := by
    rw [step, turn]
    exact coreStep_rest rest
  exact ⟨_, waits, rfl, sameBut_setInputs s s.inputs.tail⟩

end Sys2Proof.Machine
end

section
/-! PROOFS. The turns of CORE (spec/44_sequencer.md R205, R206), said once: each transition of the sequencer with its
condition and its writes. Every invariant of CORE is a case analysis over these. -/

namespace Sys2Proof.Machine

/-- R206: what a turn of CORE that goes on does, one constructor for each transition. -/
inductive CoreTurn (s : State) : State → Prop where
  /-- R207, R208: CORE waits. -/
  | rest : s.PHASE = .idle ∨ s.PHASE = .done → CoreTurn s s
  /-- R123: a digest computation starts. -/
  | init : s.PHASE = .init → CoreTurn s
      ((((s.setH IV).setNBLK (BitVec.ofNat 64 (nblocks s.LEN.toNat))).setBLK 0#64).setPHASE .pad)
  /-- R124: a block is assembled. -/
  | pad (b : Vector Word 16) : s.PHASE = .pad → padBlock s = .ok b → CoreTurn s ((s.setB b).setPHASE .wcopy)
  /-- R142: the block becomes the start of the schedule. -/
  | wcopy : s.PHASE = .wcopy → CoreTurn s (((s.setW (copyBlock s.B s.W)).setJ 16#6).setPHASE .expand)
  /-- R143: one more schedule word. -/
  | expandNext : s.PHASE = .expand → s.J.toNat < 63 →
      CoreTurn s ((s.setW (expandSchedule s.W s.J)).setJ (s.J + 1#6))
  /-- R143: the last schedule word. -/
  | expandLast : s.PHASE = .expand → s.J.toNat = 63 →
      CoreTurn s ((s.setW (expandSchedule s.W s.J)).setPHASE .ldwv)
  /-- R164: the working variables are loaded. -/
  | ldwv : s.PHASE = .ldwv → CoreTurn s (((s.setV s.H).setJ 0#6).setPHASE .round)
  /-- R165: one more round. -/
  | roundNext : s.PHASE = .round → s.J.toNat < 63 →
      CoreTurn s ((s.setV (roundAt s.V s.W s.J)).setJ (s.J + 1#6))
  /-- R165: the last round. -/
  | roundLast : s.PHASE = .round → s.J.toNat = 63 → CoreTurn s ((s.setV (roundAt s.V s.W s.J)).setPHASE .ffwd)
  /-- R166: another block follows. -/
  | ffwdNext : s.PHASE = .ffwd → s.BLK.toNat + 1 < s.NBLK.toNat →
      CoreTurn s (((s.setH (feedForward s.H s.V)).setBLK (s.BLK + 1#64)).setPHASE .pad)
  /-- R166: that was the last block. -/
  | ffwdLast : s.PHASE = .ffwd → s.NBLK.toNat ≤ s.BLK.toNat + 1 →
      CoreTurn s (((s.setH (feedForward s.H s.V)).setBLK (s.BLK + 1#64)).setPHASE .render)
  /-- R192: the digest string is written. -/
  | render : s.PHASE = .render → CoreTurn s ((s.setDIGEST (render s.H)).setPHASE .done)

/-- An outcome known to be the next state `t` leads nowhere else. -/
theorem eq_of_next {r : Result} {t u : State} (h : r = .next t) (h' : r = .next u) : u = t :=
  Host.Outcome.next.inj (h'.symm.trans h)

/-- R27: an index that is not below 63 is 63. -/
theorem toNat_eq_of_not_lt {j : BitVec 6} (h : ¬ j.toNat < 63) : j.toNat = 63 := by
  have := j.isLt
  omega

/-- R206: a turn of CORE that goes on makes one of the transitions. -/
theorem coreTurn_of_coreStep {s t : State} (h : coreStep s = .next t) : CoreTurn s t := by
  cases hp : s.PHASE with
  | idle =>
    obtain rfl := eq_of_next (coreStep_idle hp) h
    exact .rest (.inl hp)
  | init => exact eq_of_next (coreStep_init hp) h ▸ .init hp
  | pad =>
    rw [coreStep_pad hp] at h
    rcases execPad_cases s with ⟨b, block, outcome⟩ | ⟨f, _, outcome⟩
    · exact eq_of_next outcome h ▸ .pad b hp block
    · cases outcome.symm.trans h
  | wcopy => exact eq_of_next (coreStep_wcopy hp) h ▸ .wcopy hp
  | expand =>
    obtain rfl := eq_of_next (coreStep_expand hp) h
    split
    · next below => exact .expandNext hp below
    · next last => exact .expandLast hp (toNat_eq_of_not_lt last)
  | ldwv => exact eq_of_next (coreStep_ldwv hp) h ▸ .ldwv hp
  | round =>
    obtain rfl := eq_of_next (coreStep_round hp) h
    split
    · next below => exact .roundNext hp below
    · next last => exact .roundLast hp (toNat_eq_of_not_lt last)
  | ffwd =>
    obtain rfl := eq_of_next (coreStep_ffwd hp) h
    rcases Nat.lt_or_ge (s.BLK.toNat + 1) s.NBLK.toNat with another | last
    · rw [phaseAfterBlock_of_lt another]
      exact .ffwdNext hp another
    · rw [phaseAfterBlock_of_le last]
      exact .ffwdLast hp last
  | render => exact eq_of_next (coreStep_render hp) h ▸ .render hp
  | done =>
    obtain rfl := eq_of_next (coreStep_done hp) h
    exact .rest (.inr hp)

/-- R260: a turn of CORE makes one of the transitions, or it is PAD and faults. -/
theorem coreStep_cases (s : State) :
    (∃ t, coreStep s = .next t ∧ CoreTurn s t) ∨
      (∃ f, coreStep s = .fault f ∧ s.PHASE = .pad ∧ padBlock s = .error f) := by
  have goesOn : ∀ {t}, coreStep s = .next t → ∃ t, coreStep s = .next t ∧ CoreTurn s t :=
    fun h => ⟨_, h, coreTurn_of_coreStep h⟩
  cases hp : s.PHASE with
  | idle => exact .inl (goesOn (coreStep_idle hp))
  | init => exact .inl (goesOn (coreStep_init hp))
  | pad =>
    rcases execPad_cases s with ⟨b, _, outcome⟩ | ⟨f, block, outcome⟩
    · exact .inl (goesOn ((coreStep_pad hp).trans outcome))
    · exact .inr ⟨f, (coreStep_pad hp).trans outcome, rfl, block⟩
  | wcopy => exact .inl (goesOn (coreStep_wcopy hp))
  | expand => exact .inl (goesOn (coreStep_expand hp))
  | ldwv => exact .inl (goesOn (coreStep_ldwv hp))
  | round => exact .inl (goesOn (coreStep_round hp))
  | ffwd => exact .inl (goesOn (coreStep_ffwd hp))
  | render => exact .inl (goesOn (coreStep_render hp))
  | done => exact .inl (goesOn (coreStep_done hp))

end Sys2Proof.Machine
end

section
/-! PROOFS. The invariant (spec/10_state.md R27 to R37): it holds after reset, and every step keeps it. Each turn of
CORE needs one fact: the schedule that EXPAND extends, the round that ROUND adds, the index that FFWD counts. -/

namespace Sys2Proof.Machine

/-! ## What the phase makes of the invariant -/

/-- R30: CORE processes no block unless it is busy. -/
theorem phaseInBlock_of_not_busy {s : State} (h : busyFlag s = false) : phaseInBlock s.PHASE = false := by
  rcases (busyFlag_eq_false s).mp h with h | h <;> rw [h] <;> rfl

/-- R30: a phase in which CORE processes a block. -/
theorem phaseInBlock_of_eq {s : State} {p : Phase} (hp : s.PHASE = p) (h : phaseInBlock p = true) :
    phaseInBlock s.PHASE = true := hp ▸ h

/-- R30: a busy CORE is in no rest phase. -/
theorem not_rest_of_busy {s : State} (busy : busyFlag s = true) : ¬(s.PHASE = .idle ∨ s.PHASE = .done) := by
  rw [← busyFlag_eq_false, busy]
  decide

/-- With no block in progress the invariant is about message memory, `LEN` and a finished digest. -/
theorem Invariant.of_not_inBlock {s : State} (memWf : s.MSG.wf = true)
    (memWithin : memoryWithin s.MSG s.msgCap.val = true) (lenWithin : s.LEN.toNat ≤ s.msgCap.val)
    (outside : phaseInBlock s.PHASE = false)
    (digestHex : s.PHASE = .done → ∀ n : Fin 64, isHexCode s.DIGEST[n] = true) : Invariant s where
  memWf := memWf
  memWithin := memWithin
  lenWithin := lenWithin
  blkBelow h := by simp [outside] at h
  nblkIs h := by simp [outside] at h
  jExpand h := by simp [h, phaseInBlock] at outside
  schedulePart h := by simp [h, phaseInBlock] at outside
  scheduleWhole h := by rcases h with h | h | h <;> simp [h, phaseInBlock] at outside
  varsPart h := by simp [h, phaseInBlock] at outside
  varsWhole h := by simp [h, phaseInBlock] at outside
  digestHex := digestHex

/-- At the start of a block (PAD) and with the block assembled (WCOPY) the invariant adds the two counters. -/
theorem Invariant.of_block_start {s : State} (memWf : s.MSG.wf = true)
    (memWithin : memoryWithin s.MSG s.msgCap.val = true) (lenWithin : s.LEN.toNat ≤ s.msgCap.val)
    (start : s.PHASE = .pad ∨ s.PHASE = .wcopy) (blkBelow : s.BLK.toNat < s.NBLK.toNat)
    (nblkIs : s.NBLK.toNat = nblocks s.LEN.toNat) : Invariant s where
  memWf := memWf
  memWithin := memWithin
  lenWithin := lenWithin
  blkBelow _ := blkBelow
  nblkIs _ := nblkIs
  jExpand h := by simp [h] at start
  schedulePart h := by simp [h] at start
  scheduleWhole h := by rcases h with h | h | h <;> simp [h] at start
  varsPart h := by simp [h] at start
  varsWhole h := by simp [h] at start
  digestHex h := by simp [h] at start

/-- Within a block a turn of CORE changes neither message memory nor the counters; what it must bring is what its new
phase asks of the schedule and the working variables. -/
theorem Invariant.within_block {s t : State} (inv : Invariant s) (inBlock : phaseInBlock s.PHASE = true)
    (unfinished : t.PHASE ≠ .done := by simp) (sameMSG : t.MSG = s.MSG := by simp)
    (sameCap : t.msgCap = s.msgCap := by simp) (sameLEN : t.LEN = s.LEN := by simp)
    (sameBLK : t.BLK = s.BLK := by simp) (sameNBLK : t.NBLK = s.NBLK := by simp)
    (jExpand : t.PHASE = .expand → 16 ≤ t.J.toNat := by simp)
    (schedulePart : t.PHASE = .expand → ∀ i : Fin 64, i.val < t.J.toNat → t.W[i] = (expand t.B)[i] := by simp)
    (scheduleWhole : t.PHASE = .ldwv ∨ t.PHASE = .round ∨ t.PHASE = .ffwd → t.W = expand t.B := by simp)
    (varsPart : t.PHASE = .round → t.V = roundsFrom t.H t.W t.J.toNat := by simp)
    (varsWhole : t.PHASE = .ffwd → t.V = roundsFrom t.H t.W 64 := by simp) : Invariant t where
  memWf := sameMSG ▸ inv.memWf
  memWithin := sameMSG ▸ sameCap ▸ inv.memWithin
  lenWithin := sameLEN ▸ sameCap ▸ inv.lenWithin
  blkBelow _ := sameBLK ▸ sameNBLK ▸ inv.blkBelow inBlock
  nblkIs _ := sameNBLK ▸ sameLEN ▸ inv.nblkIs inBlock
  jExpand := jExpand
  schedulePart := schedulePart
  scheduleWhole := scheduleWhole
  varsPart := varsPart
  varsWhole := varsWhole
  digestHex h := absurd h unfinished

/-! ## Reset and host commands -/

/-- Settles O51: no message, no block in progress and no finished digest. -/
theorem invariantAtReset : Obligations.InvariantAtReset :=
  fun cap => .of_not_inBlock rfl rfl (Nat.zero_le cap.val) rfl (by simp [State.resetWith])

/-- R290: a reset event restores the invariant. -/
theorem invariant_resetEvent (s : State) : Invariant (resetEvent s) :=
  .of_not_inBlock rfl rfl (Nat.zero_le s.msgCap.val) rfl (by simp)

/-- R226 to R228: the effect of a host command keeps the invariant; each comes with `BUSY = 0`, and the arguments of
SETLEN and WRMSG are in range. -/
theorem CommandEffect.keeps_invariant {s u : State} {i : Instr} {c : RspCode} (inv : Invariant s)
    (h : CommandEffect s i c u) : Invariant u := by
  cases h with
  | none => exact inv
  | setlen n free within =>
    exact .of_not_inBlock inv.memWf inv.memWithin within (phaseInBlock_of_not_busy free) inv.digestHex
  | wrmsg addr byte free below =>
    exact .of_not_inBlock (Memory.write_wf _ _ _ inv.memWf) (memoryWithin_write _ _ _ _ below inv.memWithin)
      inv.lenWithin (phaseInBlock_of_not_busy free) inv.digestHex
  | start free => exact .of_not_inBlock inv.memWf inv.memWithin inv.lenWithin rfl (by simp)

/-- R225: the processing of a command word keeps the invariant. -/
theorem processCommand_keeps_invariant {s t : State} {w : CommandWord} (inv : Invariant s)
    (h : processCommand w s = .next t) : Invariant t := by
  rcases processCommand_cases w s with ⟨_, _, outcome⟩ | ⟨_, c, d, u, _, _, outcome, effect, _⟩
  · exact eq_of_next outcome h ▸ invariant_respond inv _ _
  · exact eq_of_next outcome h ▸ invariant_respond (effect.keeps_invariant inv) _ _

/-! ## The turns of CORE -/

section
variable {s : State} (inv : Invariant s)
include inv

/-- R143: after EXPAND the schedule agrees with `expand(B)` up to `J`. -/
theorem expandSchedule_agrees_of_invariant (hp : s.PHASE = .expand) (t : Fin 64) (ht : t.val ≤ s.J.toNat) :
    (expandSchedule s.W s.J)[t] = (expand s.B)[t] :=
  expandSchedule_agrees (isSchedule_expand s.B) (inv.jExpand hp) (inv.schedulePart hp) t ht

/-- R144: EXPAND at 63 completes the schedule. -/
theorem expandSchedule_eq_of_invariant (hp : s.PHASE = .expand) (last : s.J.toNat = 63) :
    expandSchedule s.W s.J = expand s.B := by
  refine Vector.ext fun i hi => ?_
  have agrees := expandSchedule_agrees_of_invariant inv hp ⟨i, hi⟩ (last ▸ Nat.le_of_lt_succ hi)
  rwa [Fin.getElem_fin, Fin.getElem_fin] at agrees

/-- R167: after ROUND the working variables are those after one more round. -/
theorem roundAt_of_invariant (hp : s.PHASE = .round) : roundAt s.V s.W s.J = roundsFrom s.H s.W (s.J.toNat + 1) := by
  rw [inv.varsPart hp, roundsFrom_succ]

/-- R28: in FFWD the index of the next block is the sum itself. -/
theorem toNat_blk_succ_of_invariant (hp : s.PHASE = .ffwd) : (s.BLK + 1#64).toNat = s.BLK.toNat + 1 := by
  have below := inv.blkBelow (phaseInBlock_of_eq hp rfl)
  exact BitVec.toNat_add_of_lt (lt_of_le_of_lt below s.NBLK.isLt)

/-- R205: every turn of CORE keeps the invariant. -/
theorem CoreTurn.keeps_invariant {t : State} (turn : CoreTurn s t) : Invariant t := by
  cases turn with
  | rest => exact inv
  | init hp =>
    have blocks := toNat_ofNat_nblocks s.LEN
    refine .of_block_start inv.memWf inv.memWithin inv.lenWithin (.inl rfl) ?_ blocks
    exact lt_of_lt_of_eq (one_le_nblocks s.LEN.toNat) blocks.symm
  | pad b hp =>
    have inBlock := phaseInBlock_of_eq hp rfl
    exact inv.within_block inBlock
  | wcopy hp =>
    have inBlock := phaseInBlock_of_eq hp rfl
    have agrees := copyBlock_agrees s.B s.W
    exact inv.within_block inBlock (schedulePart := fun _ => by simpa using agrees)
  | expandNext hp below =>
    have inBlock := phaseInBlock_of_eq hp rfl
    have count := toNat_succ_of_lt below
    have sixteen := inv.jExpand hp
    refine inv.within_block inBlock (by simp [hp]) (jExpand := fun _ => ?index) (schedulePart := fun _ i hi => ?word)
      (scheduleWhole := by simp [hp]) (varsPart := by simp [hp]) (varsWhole := by simp [hp])
    case index =>
      rw [State.setJ_J, count]
      omega
    case word =>
      rw [State.setJ_J, count] at hi
      exact expandSchedule_agrees_of_invariant inv hp i (Nat.le_of_lt_succ hi)
  | expandLast hp last =>
    have inBlock := phaseInBlock_of_eq hp rfl
    exact inv.within_block inBlock (scheduleWhole := fun _ => expandSchedule_eq_of_invariant inv hp last)
  | ldwv hp =>
    have inBlock := phaseInBlock_of_eq hp rfl
    exact inv.within_block inBlock (scheduleWhole := fun _ => inv.scheduleWhole (.inl hp)) (varsPart := fun _ => rfl)
  | roundNext hp below =>
    have inBlock := phaseInBlock_of_eq hp rfl
    refine inv.within_block inBlock (by simp [hp]) (jExpand := by simp [hp]) (schedulePart := by simp [hp])
      (scheduleWhole := fun _ => inv.scheduleWhole (.inr (.inl hp))) (varsPart := fun _ => ?_)
      (varsWhole := by simp [hp])
    rw [State.setJ_J, toNat_succ_of_lt below]
    exact roundAt_of_invariant inv hp
  | roundLast hp last =>
    have inBlock := phaseInBlock_of_eq hp rfl
    have vars := roundAt_of_invariant inv hp
    rw [last] at vars
    exact inv.within_block inBlock (scheduleWhole := fun _ => inv.scheduleWhole (.inr (.inl hp)))
      (varsWhole := fun _ => vars)
  | ffwdNext hp another =>
    exact .of_block_start inv.memWf inv.memWithin inv.lenWithin (.inl rfl)
      (lt_of_eq_of_lt (toNat_blk_succ_of_invariant inv hp) another) (inv.nblkIs (phaseInBlock_of_eq hp rfl))
  | ffwdLast hp => exact .of_not_inBlock inv.memWf inv.memWithin inv.lenWithin rfl (by simp)
  | render hp =>
    exact .of_not_inBlock (by simpa using inv.memWf) (by simpa using inv.memWithin) (by simpa using inv.lenWithin) rfl
      (by simpa using isHexCode_render s.H)

end

/-- Settles O52: a reset restores the invariant, and host commands and CORE's turns keep it. -/
theorem stepKeepsInvariant : Obligations.StepKeepsInvariant := by
  intro s t inv next
  have dropped : Invariant (dropEvent s) := invariant_setInputs inv s.inputs.tail
  rcases step_cases s with ⟨_, outcome⟩ | ⟨_, outcome⟩ | ⟨w, _, outcome⟩
  · exact (coreTurn_of_coreStep (outcome.symm.trans next)).keeps_invariant dropped
  · exact eq_of_next outcome next ▸ invariant_resetEvent _
  · exact processCommand_keeps_invariant dropped (outcome.symm.trans next)

end Sys2Proof.Machine
end

section
/-! PROOFS. The padded message (spec/40_preprocessor.md R120 to R122): the document's algorithm builds, byte for byte,
the four cases of the rule, and the last block ends with the bit length. -/

namespace Sys2Proof.Machine

/-- Settles O26: rounding up to a multiple of 64 is rounding down 63 further. -/
theorem nblocksIsCeiling : Obligations.NblocksIsCeiling := by
  refine ⟨fun len => ⟨rfl, ?_, ?_, one_le_nblocks len⟩, by decide⟩ <;> unfold nblocks <;> omega

/-- R120: the blocks hold the message, its terminator and the length field. -/
theorem len_add_nine_le (len : Nat) : len + 9 ≤ 64 * nblocks len := (nblocksIsCeiling.1 len).2.1

/-- R121: what the zero bytes fill up. -/
theorem len_add_zeroBytes (len : Nat) : len + 1 + zeroBytes len = 64 * nblocks len - 8 := by
  have := len_add_nine_le len
  unfold zeroBytes
  omega

/-- R121: the padded message is a whole number of blocks. -/
theorem length_padMessage (m : List Byte) : (padMessage m).length = 64 * nblocks m.length := by
  have filled := len_add_zeroBytes m.length
  have room := len_add_nine_le m.length
  simp only [padMessage, lengthField, List.length_append, List.length_cons, List.length_nil, List.length_replicate,
    List.length_map, List.length_range]
  omega

/-- R62: byte `k` of the length field. -/
theorem getElem?_lengthField (len : Nat) {k : Nat} (hk : k < 8) :
    (lengthField len)[k]? = some (byte64 (bitLength len) k) := by
  simp [lengthField, hk]

/-- R121: a byte of the padded message is the padded byte of the four cases. -/
theorem getElem?_padMessage (m : List Byte) {i : Nat} (hi : i < 64 * nblocks m.length) :
    (padMessage m)[i]? = some (paddedByteOf (byteAt m) m.length (nblocks m.length) i) := by
  have filled := len_add_zeroBytes m.length
  have head : (m ++ [0x80#8]).length = m.length + 1 := List.length_append
  have body : (m ++ [0x80#8] ++ List.replicate (zeroBytes m.length) 0x00#8).length = 64 * nblocks m.length - 8 := by
    rw [List.length_append, head, List.length_replicate, filled]
  unfold padMessage paddedByteOf
  split
  · next message =>
    rw [List.getElem?_append_left (by omega), List.getElem?_append_left (by omega), List.getElem?_append_left message,
      byteAt, List.getElem?_eq_getElem message]
    rfl
  · split
    · next terminator =>
      rw [List.getElem?_append_left (by omega), List.getElem?_append_left (by omega),
        List.getElem?_append_right (by omega), terminator, Nat.sub_self]
      rfl
    · split
      · next zero =>
        rw [List.getElem?_append_left (by omega), List.getElem?_append_right (by omega), head,
          List.getElem?_replicate, if_pos (by omega)]
      · next length =>
        rw [List.getElem?_append_right (by omega), body, getElem?_lengthField _ (by omega)]

/-- R121: the same, for the bytes of the blocks. -/
theorem byteAt_padMessage (m : List Byte) {i : Nat} (hi : i < 64 * nblocks m.length) :
    byteAt (padMessage m) i = paddedByteOf (byteAt m) m.length (nblocks m.length) i := by
  rw [byteAt, getElem?_padMessage m hi]
  rfl

section
variable (m : Nat → Byte) {len n i : Nat}

/-- R121, first case: the message. -/
theorem paddedByteOf_of_lt (h : i < len) : paddedByteOf m len n i = m i := if_pos h

/-- R121, second case: the terminator. -/
theorem paddedByteOf_self : paddedByteOf m len n len = 0x80#8 := by simp [paddedByteOf]

/-- R121, third case: zero bytes. -/
theorem paddedByteOf_zero (above : len < i) (h : i + 8 < 64 * n) : paddedByteOf m len n i = 0x00#8 := by
  have zero : i < 64 * n - 8 := by omega
  simp [paddedByteOf, Nat.not_lt_of_lt above, Nat.ne_of_gt above, zero]

/-- R121, fourth case: the length field. -/
theorem paddedByteOf_length {k : Nat} (above : len < i) (hk : k < 8) (h : i + 8 = 64 * n + k) :
    paddedByteOf m len n i = byte64 (bitLength len) k := by
  have field : ¬ i < 64 * n - 8 := by omega
  have inside : i < 64 * n := by omega
  have index : i - (64 * n - 8) = k := by omega
  simp [paddedByteOf, Nat.not_lt_of_lt above, Nat.ne_of_gt above, field, inside, index]

end

/-- Settles O27: the bytes by their cases, and the number of zero bytes by arithmetic. -/
theorem paddedMessageLayout : Obligations.PaddedMessageLayout := by
  intro m
  have room := len_add_nine_le m.length
  have filled := len_add_zeroBytes m.length
  have ceiling : 64 * nblocks m.length < m.length + 9 + 64 := (nblocksIsCeiling.1 m.length).2.2.1
  refine ⟨length_padMessage m, ?message, ?terminator, ?zeros, ?length, by omega, by omega, fun z hz => by omega,
    by omega, by omega, ?exact⟩
  case message =>
    intro i hi
    rw [getElem?_padMessage m (by omega), paddedByteOf_of_lt _ hi, byteAt, List.getElem?_eq_getElem hi]
    rfl
  case terminator => rw [getElem?_padMessage m (by omega), paddedByteOf_self]
  case zeros =>
    intro i above below
    rw [getElem?_padMessage m (by omega), paddedByteOf_zero _ above (by omega)]
  case length =>
    intro fits k hk
    rw [getElem?_padMessage m (by omega), paddedByteOf_length _ (by omega) hk (by omega), bitLength_of_fits fits]
  case exact => exact fun fits => Nat.mod_eq_of_lt fits

/-- R13, R62: the eight bytes of a 64-bit integer, as two big-endian words, join to it. -/
theorem be32_byte64_append (v : Word64) :
    be32 (byte64 v 0) (byte64 v 1) (byte64 v 2) (byte64 v 3) ++ be32 (byte64 v 4) (byte64 v 5) (byte64 v 6) (byte64 v 7)
      = v := by
  have join : ∀ start, ((v.extractLsb' (start + 24) 8 ++ v.extractLsb' (start + 16) 8) ++
      v.extractLsb' (start + 8) 8) ++ v.extractLsb' start 8 = v.extractLsb' start 32 := by
    intro start
    have top : v.extractLsb' (start + 24) 8 ++ v.extractLsb' (start + 16) 8 = v.extractLsb' (start + 16) 16 :=
      BitVec.extractLsb'_append_extractLsb'_eq_extractLsb' rfl
    have upper : v.extractLsb' (start + 16) 16 ++ v.extractLsb' (start + 8) 8 = v.extractLsb' (start + 8) 24 :=
      BitVec.extractLsb'_append_extractLsb'_eq_extractLsb' rfl
    rw [top, upper]
    exact BitVec.extractLsb'_append_extractLsb'_eq_extractLsb' rfl
  have whole : v.extractLsb' 32 32 ++ v.extractLsb' 0 32 = v :=
    BitVec.extractLsb'_append_extractLsb' (w := 32) (len := 32)
  exact (congrArg₂ (· ++ ·) (join 32) (join 0)).trans whole

/-- R61: a word of a block, its four bytes from `i` on. -/
theorem getElem_blockOf (p : List Byte) (b : Nat) {t i : Nat} (ht : t < 16) (hi : i = 64 * b + 4 * t) :
    (blockOf p b)[t] = be32 (byteAt p i) (byteAt p (i + 1)) (byteAt p (i + 2)) (byteAt p (i + 3)) := by
  simp [blockOf, hi]

/-- Settles O28: the last eight bytes are the length field, and after a spill every byte before them is a zero byte. -/
theorem lastBlockHoldsTheLength : Obligations.LastBlockHoldsTheLength := by
  intro m fits
  have room := len_add_nine_le m.length
  have positive := one_le_nblocks m.length
  refine ⟨?length, fun spill t => ?zeros⟩
  case length =>
    have field : ∀ i k, k < 8 → i + 8 = 64 * nblocks m.length + k →
        byteAt (padMessage m) i = byte64 (bitLength m.length) k := fun i k hk hi => by
      rw [byteAt_padMessage m (by omega), paddedByteOf_length _ (by omega) hk hi]
    rw [getElem_blockOf _ _ (i := 64 * nblocks m.length - 8) (by decide) (by omega),
      getElem_blockOf _ _ (i := 64 * nblocks m.length - 4) (by decide) (by omega),
      field _ 0 (by decide) (by omega), field _ 1 (by decide) (by omega), field _ 2 (by decide) (by omega),
      field _ 3 (by decide) (by omega), field _ 4 (by decide) (by omega), field _ 5 (by decide) (by omega),
      field _ 6 (by decide) (by omega), field _ 7 (by decide) (by omega), be32_byte64_append, bitLength_of_fits fits]
    exact Nat.mod_eq_of_lt fits
  case zeros =>
    have beyond : m.length < 64 * (nblocks m.length - 1) := by
      unfold nblocks
      omega
    have zero : ∀ i, 64 * (nblocks m.length - 1) ≤ i → i + 8 < 64 * nblocks m.length →
        byteAt (padMessage m) i = 0x00#8 := fun i lower upper => by
      rw [byteAt_padMessage m (by omega), paddedByteOf_zero _ (by omega) upper]
    rw [getElem_blockOf _ _ (by omega) rfl, zero _ (by omega) (by omega), zero _ (by omega) (by omega),
      zero _ (by omega) (by omega), zero _ (by omega) (by omega)]
    rfl

end Sys2Proof.Machine
end

section
/-! PROOFS. PAD (spec/40_preprocessor.md R124, spec/60_exceptions.md R269): the block it assembles, and the one cause of
a fault. -/

namespace Sys2Proof.Machine

/-- R124: PAD with the message bytes of the block readable. -/
theorem exec_pad_of_readable {s : State} {m : Nat → Byte}
    (h : ∀ i, 64 * s.BLK.toNat ≤ i → i < s.LEN.toNat → i < 64 * s.BLK.toNat + 64 → memRead .msg i s = .ok (m i)) :
    exec .pad s = .next ((s.setB (Vector.ofFn fun t : Fin 16 =>
      paddedWordOf m s.LEN.toNat s.NBLK.toNat s.BLK.toNat t.val)).setPHASE .wcopy) :=
  execPad_of_ok (padBlock_ok h)

/-- R124: the two writes of PAD leave every other piece of the state alone. -/
theorem sameBut_pad_writes (s : State) (b : Vector Word 16) (p : Phase) :
    SameBut [.B, .PHASE] s ((s.setB b).setPHASE p) := by
  rw [sameBut_iff]
  simp

/-- Settles O30: the padded bytes are those of the four cases. -/
theorem padRule : Obligations.PadRule := by
  refine ⟨rfl, fun s m readable => ?_⟩
  refine ⟨_, paddedByteOf m s.LEN.toNat s.NBLK.toNat, exec_pad_of_readable readable, ?message, paddedByteOf_self m,
    ?zeros, ?length, ?block, rfl, sameBut_pad_writes s _ _⟩
  case message => exact fun i => paddedByteOf_of_lt m
  case zeros => exact fun i => paddedByteOf_zero m
  case length =>
    intro fits i k above hk hi
    rw [paddedByteOf_length m above hk hi, bitLength_of_fits fits]
  case block => exact fun w => Vector.getElem_ofFn w.isLt

/-- R124, R211: with the message `m` in memory the block PAD assembles is block `BLK` of the padded message. -/
theorem exec_pad_of_holdsMessage {s : State} {m : List Byte} (holds : HoldsMessage m s)
    (blkBelow : s.BLK.toNat < s.NBLK.toNat) (nblkIs : s.NBLK.toNat = nblocks m.length) :
    exec .pad s = .next ((s.setB (blockOf (padMessage m) s.BLK.toNat)).setPHASE .wcopy) := by
  have readable : ∀ i, 64 * s.BLK.toNat ≤ i → i < s.LEN.toNat → i < 64 * s.BLK.toNat + 64 →
      memRead .msg i s = .ok (byteAt m i) := fun i _ hi _ => holdsMessage_read holds i (holds.1 ▸ hi)
  have block : (Vector.ofFn fun t : Fin 16 => paddedWordOf (byteAt m) s.LEN.toNat s.NBLK.toNat s.BLK.toNat t.val) =
      blockOf (padMessage m) s.BLK.toNat := by
    refine Vector.ext fun t ht => ?_
    rw [Vector.getElem_ofFn, getElem_blockOf _ _ ht rfl, paddedWordOf, holds.1, nblkIs,
      byteAt_padMessage m (by omega), byteAt_padMessage m (by omega), byteAt_padMessage m (by omega),
      byteAt_padMessage m (by omega)]
  rw [exec_pad_of_readable readable, block]

/-- Settles O31: the invariant gives the counters. -/
theorem padProducesTheBlock : Obligations.PadProducesTheBlock := by
  intro s m inv hp holds
  have inBlock := phaseInBlock_of_eq hp rfl
  exact ⟨_, exec_pad_of_holdsMessage holds (inv.blkBelow inBlock) (holds.1 ▸ inv.nblkIs inBlock), rfl⟩

/-- R124: PAD faults exactly with a fault of the block. -/
theorem exec_pad_eq_fault {s : State} {f : Fault} : exec .pad s = .fault f ↔ padBlock s = .error f := by
  show execPad s = .fault f ↔ _
  rcases execPad_cases s with ⟨b, block, outcome⟩ | ⟨g, block, outcome⟩ <;> simp [block, outcome]

/-- What follows a read that answers. -/
theorem exists_of_bind_eq_ok {α : Type} {x : Except Fault Byte} {f : Byte → Except Fault α} {a : α}
    (h : (x >>= f) = .ok a) : ∃ b, x = .ok b ∧ f b = .ok a := by
  cases x with
  | error e => cases h
  | ok b => exact ⟨b, rfl, h⟩

/-- A word is made of four bytes that all could be read. -/
theorem paddedWord_eq_ok {r : Nat → Except Fault Byte} {len n blk t : Nat} {w : Word}
    (h : paddedWord r len n blk t = .ok w) {k : Nat} (hk : k < 4) :
    ∃ b, paddedByte r len n (64 * blk + 4 * t + k) = .ok b := by
  obtain ⟨b0, h0, h⟩ := exists_of_bind_eq_ok h
  obtain ⟨b1, h1, h⟩ := exists_of_bind_eq_ok h
  obtain ⟨b2, h2, h⟩ := exists_of_bind_eq_ok h
  obtain ⟨b3, h3, _⟩ := exists_of_bind_eq_ok h
  match k, hk with
  | 0, _ => exact ⟨b0, h0⟩
  | 1, _ => exact ⟨b1, h1⟩
  | 2, _ => exact ⟨b2, h2⟩
  | 3, _ => exact ⟨b3, h3⟩

/-- R124: a block that is assembled has read every message byte it holds. -/
theorem memRead_of_padBlock {s : State} {b : Vector Word 16} (h : padBlock s = .ok b) {i : Nat}
    (lower : 64 * s.BLK.toNat ≤ i) (below : i < s.LEN.toNat) (upper : i < 64 * s.BLK.toNat + 64) :
    ∃ c, memRead .msg i s = .ok c := by
  obtain ⟨t, k, ht, hk, rfl⟩ : ∃ t k, t < 16 ∧ k < 4 ∧ i = 64 * s.BLK.toNat + 4 * t + k :=
    ⟨(i - 64 * s.BLK.toNat) / 4, (i - 64 * s.BLK.toNat) % 4, by omega, by omega, by omega⟩
  obtain ⟨c, byte⟩ := paddedWord_eq_ok ((collect_ok_iff 16 _ b).mp h t ht) hk
  rw [paddedByte, if_pos below] at byte
  exact ⟨c, byte⟩

/-- R269: under the invariant the fault of a block is a message byte of it that was never written. -/
theorem padBlock_error_of_invariant {s : State} {f : Fault} (inv : Invariant s) (h : padBlock s = .error f) :
    ∃ i, f = .unwrittenMessageByte i ∧ 64 * s.BLK.toNat ≤ i ∧ i < s.LEN.toNat ∧ i < 64 * s.BLK.toNat + 64 ∧
      s.MSG.read i = none := by
  obtain ⟨i, lower, below, upper, read⟩ := padBlock_error h
  have inCap : i < s.msgCap.val := below.trans_le inv.lenWithin
  rcases memRead_msg_error.mp read with ⟨_, unwritten, rfl⟩ | ⟨outside, _⟩
  · exact ⟨i, rfl, lower, below, upper, unwritten⟩
  · exact absurd inCap (Nat.not_lt.mpr outside)

/-- Settles O32: PAD faults with a fault of its block, and a block without one has read every byte. -/
theorem padFaultsOnUnwrittenBytesOnly : Obligations.PadFaultsOnUnwrittenBytesOnly := by
  refine fun s inv => ⟨⟨?faults, ?unwritten⟩, fun f h => padBlock_error_of_invariant inv (exec_pad_eq_fault.mp h)⟩
  case faults =>
    rintro ⟨f, h⟩
    obtain ⟨i, _, unwritten⟩ := padBlock_error_of_invariant inv (exec_pad_eq_fault.mp h)
    exact ⟨i, unwritten⟩
  case unwritten =>
    rintro ⟨i, lower, below, upper, unwritten⟩
    cases block : padBlock s with
    | error f => exact ⟨f, exec_pad_eq_fault.mpr block⟩
    | ok b =>
      obtain ⟨c, read⟩ := memRead_of_padBlock block lower below upper
      obtain ⟨_, written⟩ := memRead_msg_ok.mp read
      rw [unwritten] at written
      cases written

/-- `collect` depends on the results it collects only. -/
theorem collect_congr {α : Type} {n : Nat} {f g : Nat → Except Fault α} (h : ∀ i, i < n → f i = g i) :
    collect n f = collect n g := by
  induction n with
  | zero => rfl
  | succ n ih => rw [collect, collect, ih fun i hi => h i (by omega), h n (by omega)]

/-- R121: a padded byte reads the message below `len` only, and no other byte. -/
theorem paddedByte_congr {r r' : Nat → Except Fault Byte} {len n i : Nat} (h : i < len → r i = r' i) :
    paddedByte r len n i = paddedByte r' len n i := by
  unfold paddedByte
  split
  · next below => exact h below
  · rfl

/-- R68, R124: the block depends on `LEN`, `NBLK`, `BLK` and the message bytes of the block. -/
theorem padBlock_congr {s t : State} (len : t.LEN = s.LEN) (nblk : t.NBLK = s.NBLK) (blk : t.BLK = s.BLK)
    (h : ∀ i, 64 * s.BLK.toNat ≤ i → i < s.LEN.toNat → i < 64 * s.BLK.toNat + 64 →
      memRead .msg i t = memRead .msg i s) : padBlock t = padBlock s := by
  unfold padBlock
  rw [len, nblk, blk]
  refine collect_congr fun w hw => ?_
  have byte : ∀ k, k < 4 →
      paddedByte (fun i => memRead .msg i t) s.LEN.toNat s.NBLK.toNat (64 * s.BLK.toNat + 4 * w + k) =
        paddedByte (fun i => memRead .msg i s) s.LEN.toNat s.NBLK.toNat (64 * s.BLK.toNat + 4 * w + k) :=
    fun k hk => paddedByte_congr fun below => h _ (by omega) below (by omega)
  have byte0 := byte 0 (by omega)
  rw [Nat.add_zero] at byte0
  simp only [paddedWord, byte0, byte 1 (by omega), byte 2 (by omega), byte 3 (by omega)]

/-- Settles O33: the two states assemble the same block, or fault alike. -/
theorem padReadsItsBlockOnly : Obligations.PadReadsItsBlockOnly := by
  intro s t len nblk blk h
  have same := padBlock_congr len nblk blk h
  refine ⟨fun f => by rw [exec_pad_eq_fault, exec_pad_eq_fault, same], fun s' next => ?_⟩
  rcases execPad_cases s with ⟨b, block, outcome⟩ | ⟨f, _, outcome⟩
  · obtain rfl : s' = _ := Host.Outcome.next.inj (next.symm.trans outcome)
    exact ⟨_, execPad_of_ok (same.trans block), rfl⟩
  · cases next.symm.trans outcome

end Sys2Proof.Machine
end

section
/-! PROOFS. The processing of a command word (spec/45_host_commands.md R225, spec/60_exceptions.md R261, R263): decoded
or rejected, one response for each word, and its code the first cause that applies. -/

namespace Sys2Proof.Machine

/-! ## Flags -/

/-- Settles O19: each phase with its two flags. -/
theorem flagsFollowPhase : Obligations.FlagsFollowPhase := by
  intro s
  unfold busyFlag doneFlag
  generalize s.PHASE = p
  cases p <;> decide

/-! ## Decoded or rejected -/

section
variable {w : CommandWord} {s : State}

/-- R225: a word that decodes is executed. -/
theorem processCommand_of_ok {i : Instr} (h : decodeCommand w = .ok i) : processCommand w s = exec i s := by
  rw [processCommand, h]

/-- R96, R225: a word that is not legal is rejected with `E_ILLEGAL`. -/
theorem processCommand_of_illegal (h : commandWellFormed w = false) :
    processCommand w s = .next (reject .eIllegal s) := by
  rw [processCommand]
  cases decoded : decodeCommand w with
  | error e => rfl
  | ok i =>
    have legal := (commandWellFormed_iff w).mpr ⟨i, decoded⟩
    rw [h] at legal
    cases legal

end

/-- Settles O6: taking the word and executing what it decodes to is the definition of the step. -/
theorem stepRunsDecodedCommand : Obligations.StepRunsDecodedCommand :=
  fun _ _ _ _ input decoded => (step_command input).trans (processCommand_of_ok decoded)

/-- Settles O7: the code of a phase decodes to the instruction the phase selects. -/
theorem stepRunsSelectedMicroOperation : Obligations.StepRunsSelectedMicroOperation := by
  intro s i decoded
  obtain rfl : s.PHASE.instr = i := Except.ok.inj ((decodePhase_code s.PHASE).symm.trans decoded)
  exact ⟨fun silent => step_silent silent, fun rest turn => step_core turn⟩

/-- Settles O8: the rejection with `E_ILLEGAL` adds its response and takes the word. -/
theorem illegalWordIsRejected : Obligations.IllegalWordIsRejected := fun s _ rest input illegal =>
  ⟨_, (step_command input).trans (processCommand_of_illegal illegal), rfl, rfl,
    (sameBut_setInputs s rest).then_respond .eIllegal 0x00#8⟩

/-! ## The code of the response -/

section
variable {s : State}

/-- R228: START while CORE is busy. -/
theorem exec_start_of_busy (busy : busyFlag s = true) : exec .start s = .next (reject .eBusy s) :=
  if_pos busy

/-- R228: START accepted. -/
theorem exec_start_of_free (free : busyFlag s = false) :
    exec .start s = .next (respond .ok 0x00#8 (s.setPHASE .init)) := by
  simp [exec, execStart, free]

end

/-- R91: the opcode of a joined word. -/
@[simp] theorem extractLsb'_joinCommand_op (c : RawCommand) : (joinCommand c).extractLsb' 72 8 = c.op :=
  congrArg RawCommand.op (splitCommand_joinCommand c)

/-- R91: the argument of a joined word. -/
@[simp] theorem extractLsb'_joinCommand_arg (c : RawCommand) : (joinCommand c).extractLsb' 0 64 = c.arg :=
  congrArg RawCommand.arg (splitCommand_joinCommand c)

/-- R261, R263: the code of the first cause that applies, from the fields of the word. -/
def firstCause (w : CommandWord) (s : State) : BitVec 4 :=
  if commandWellFormed w = false then 1#4
  else if (w.extractLsb' 72 8 = 0x01#8 ∨ w.extractLsb' 72 8 = 0x02#8 ∨ w.extractLsb' 72 8 = 0x03#8) ∧
      busyFlag s = true then 2#4
  else if w.extractLsb' 72 8 = 0x05#8 ∧ doneFlag s = false then 4#4
  else if (w.extractLsb' 72 8 = 0x01#8 ∧ s.msgCap.val < (w.extractLsb' 0 64).toNat) ∨
      (w.extractLsb' 72 8 = 0x02#8 ∧ s.msgCap.val ≤ (w.extractLsb' 0 64).toNat) ∨
      (w.extractLsb' 72 8 = 0x05#8 ∧ 63 < (w.extractLsb' 0 64).toNat) then 3#4
  else 0#4

/-- R263: each host command is answered with its first cause. -/
theorem exec_answers_firstCause {i : Instr} {w : CommandWord} (h : decodeCommand w = .ok i) (s : State) :
    ∃ t data, exec i s = .next t ∧ Answered (firstCause w s) data s t := by
  have legal : commandWellFormed w = true := (commandWellFormed_iff w).mpr ⟨i, h⟩
  have encoded := encode_of_decodeCommand h
  cases i with
  | setlen n =>
    obtain rfl := Encoding.command.inj encoded
    cases flag : busyFlag s
    · by_cases range : s.msgCap.val < n.toNat
      · exact ⟨_, _, exec_setlen_of_out_of_range flag range, by simp [firstCause, legal, flag, range]; rfl⟩
      · exact ⟨_, _, exec_setlen_of_in_range flag (Nat.not_lt.mp range), by simp [firstCause, legal, flag, range]; rfl⟩
    · exact ⟨_, _, exec_setlen_of_busy flag, by simp [firstCause, legal, flag]; rfl⟩
  | wrmsg addr byte =>
    obtain rfl := Encoding.command.inj encoded
    cases flag : busyFlag s
    · by_cases range : s.msgCap.val ≤ addr.toNat
      · exact ⟨_, _, exec_wrmsg_of_out_of_range byte flag range, by simp [firstCause, legal, flag, range]; rfl⟩
      · exact ⟨_, _, exec_wrmsg_of_in_range byte flag (Nat.not_le.mp range),
          by simp [firstCause, legal, flag, range]; rfl⟩
    · exact ⟨_, _, exec_wrmsg_of_busy byte flag, by simp [firstCause, legal, flag]; rfl⟩
  | start =>
    obtain rfl := Encoding.command.inj encoded
    cases flag : busyFlag s
    · exact ⟨_, _, exec_start_of_free flag, by simp [firstCause, legal, flag]; rfl⟩
    · exact ⟨_, _, exec_start_of_busy flag, by simp [firstCause, legal, flag]; rfl⟩
  | rdstat =>
    obtain rfl := Encoding.command.inj encoded
    exact ⟨_, _, exec_rdstat s, by simp [firstCause, legal]; rfl⟩
  | rddig n =>
    obtain rfl := Encoding.command.inj encoded
    cases flag : doneFlag s
    · exact ⟨_, _, exec_rddig_of_not_done flag, by simp [firstCause, legal, flag]; rfl⟩
    · by_cases range : 63 < n.toNat
      · exact ⟨_, _, exec_rddig_of_out_of_range flag range, by simp [firstCause, legal, flag, range]; rfl⟩
      · exact ⟨_, _, exec_rddig_of_in_range flag (Nat.lt_succ_of_le (Nat.not_lt.mp range)),
          by simp [firstCause, legal, flag, range]; rfl⟩
  | _ => cases encoded

/-- Settles O9: a word that decodes is answered with the first cause of its command, any other with `E_ILLEGAL`. -/
theorem responseCodeIsTheFirstCause : Obligations.ResponseCodeIsTheFirstCause := by
  intro s w rest input
  show ∃ t data, step s = .next t ∧ Answered (firstCause w (s.setInputs rest)) data (s.setInputs rest) t
  rw [step_command input]
  cases legal : commandWellFormed w with
  | false => exact ⟨_, _, processCommand_of_illegal legal, by simp [firstCause, legal]; rfl⟩
  | true =>
    obtain ⟨i, decoded⟩ := (commandWellFormed_iff w).mp legal
    rw [processCommand_of_ok decoded]
    exact exec_answers_firstCause decoded _

/-- R261: the codes are `0` to `4`. -/
theorem toNat_bits_le (c : RspCode) : c.bits.toNat ≤ 4 := by
  cases c <;> decide

/-- Settles O10: every outcome of a command word is one response. -/
theorem everyCommandGetsOneResponse : Obligations.EveryCommandGetsOneResponse := by
  intro s w rest input
  rw [step_command input]
  rcases processCommand_cases w (s.setInputs rest) with
    ⟨_, _, outcome⟩ | ⟨i, c, d, u, decoded, _, outcome, effect, rejection, readers⟩
  · exact ⟨_, _, _, outcome, rfl, toNat_bits_le _, fun _ => rfl, fun h => absurd rfl h⟩
  · have noResponse : u.responses = s.responses := effect.responses_eq
    refine ⟨_, _, _, outcome, congrArg (· ++ [c.bits ++ d]) noResponse, toNat_bits_le c, fun notOk => ?_, fun h => ?_⟩
    · exact (rejection fun ok => notOk (congrArg RspCode.bits ok)).1
    · rw [decoded]
      exact (readers h).imp (congrArg _) fun ⟨n, hn⟩ => ⟨n, congrArg _ hn⟩

/-! ## A busy CORE, and a finished one -/

/-- R209: while CORE is busy no host command has an effect. -/
theorem CommandEffect.eq_of_busy {s u : State} {i : Instr} {c : RspCode} (h : CommandEffect s i c u)
    (busy : busyFlag s = true) : u = s := by
  cases h with
  | none => rfl
  | setlen _ free => simp [busy] at free
  | wrmsg _ _ free => simp [busy] at free
  | start free => simp [busy] at free

/-- R209: while CORE is busy a command word gets its response and nothing else happens. -/
theorem processCommand_of_busy {s : State} (w : CommandWord) (busy : busyFlag s = true) :
    ∃ c d, processCommand w s = .next (respond c d s) := by
  rcases processCommand_cases w s with ⟨_, _, outcome⟩ | ⟨_, c, d, u, _, _, outcome, effect, _⟩
  · exact ⟨_, _, outcome⟩
  · exact ⟨c, d, effect.eq_of_busy busy ▸ outcome⟩

/-- Settles O12: the response is all that a command word adds. -/
theorem busyComputationIsUndisturbed : Obligations.BusyComputationIsUndisturbed := by
  intro s w rest input busy
  obtain ⟨c, d, outcome⟩ := processCommand_of_busy (s := s.setInputs rest) w busy
  exact ⟨_, c.bits, d, (step_command input).trans outcome, rfl, rfl, (sameBut_setInputs s rest).then_respond c d, rfl⟩

/-- R208, R297: no host command writes the digest buffer, and only START changes the phase. -/
theorem CommandEffect.keeps_digest {s u : State} {i : Instr} {c : RspCode} (h : CommandEffect s i c u) :
    u.DIGEST = s.DIGEST ∧ (i ≠ .start → u.PHASE = s.PHASE) := by
  cases h with
  | none => exact ⟨rfl, fun _ => rfl⟩
  | setlen => exact ⟨rfl, fun _ => rfl⟩
  | wrmsg => exact ⟨rfl, fun _ => rfl⟩
  | start => exact ⟨rfl, fun notStart => absurd rfl notStart⟩

/-- Settles O13: START is accepted in `DONE`, and no other command changes the phase. -/
theorem finishedDigestStays : Obligations.FinishedDigestStays := by
  intro s t w rest input hp next
  have outcome := (step_command input).symm.trans next
  by_cases started : decodeCommand w = .ok .start
  · have free : busyFlag (s.setInputs rest) = false := (busyFlag_eq_false _).mpr (.inr hp)
    rw [processCommand_of_ok started, exec_start_of_free free] at outcome
    obtain rfl := Host.Outcome.next.inj outcome
    exact ⟨fun _ => rfl, .inl ⟨started, rfl⟩⟩
  · rcases processCommand_cases w (s.setInputs rest) with
      ⟨_, _, rejected⟩ | ⟨i, c, d, u, decoded, _, answered, effect, _⟩
    · obtain rfl := eq_of_next rejected outcome
      exact ⟨fun _ => rfl, .inr ⟨started, hp⟩⟩
    · obtain rfl := eq_of_next answered outcome
      obtain ⟨digest, phase⟩ := effect.keeps_digest
      have notStart : i ≠ .start := fun h => started (h ▸ decoded)
      exact ⟨memRead_digest_congr digest, .inr ⟨started, (phase notStart).trans hp⟩⟩

end Sys2Proof.Machine
end

section
/-! PROOFS. START (spec/45_host_commands.md R228): its two rejections, and the one register it writes. -/

namespace Sys2Proof.Machine

/-- R96: START with a must-be-zero field not zero decodes to nothing. -/
theorem decodeRaw_start_of_field_ne_zero {d : Byte} {a : Word64} (h : d ≠ 0x00#8 ∨ a ≠ 0#64) :
    decodeRaw ⟨0x03#8, d, a⟩ = .error (.mustBeZero 0x03#8) := by
  have mustBeZero : ¬(d = 0x00#8 ∧ a = 0#64) := not_and_or.mpr h
  simp [decodeRaw, mustBeZero]

/-- A write to `PHASE` leaves every other piece of the state alone. -/
theorem sameBut_setPHASE (s : State) (p : Phase) : SameBut [.PHASE] s (s.setPHASE p) := by
  rw [sameBut_iff]
  simp

/-- Settles O16: the two rejections are the checks before the effect, and the effect is one write to `PHASE`. -/
theorem startRule : Obligations.StartRule := by
  refine ⟨decodeCommand_append 0x03#8 0x00#8 0#64, ?mustBeZero, ?busy, ?accepted⟩
  case mustBeZero =>
    exact fun d a s nonzero => processCommand_append_of_error (decodeRaw_start_of_field_ne_zero nonzero) s
  case busy => exact fun s busy => exists_rejected .eBusy (exec_start_of_busy busy)
  case accepted =>
    intro s rest
    exact ⟨_, exec_start_of_free ((busyFlag_eq_false s).mpr rest), rfl, rfl, rfl, rfl,
      (sameBut_setPHASE s .init).then_respond _ _⟩

end Sys2Proof.Machine
end

section
/-! PROOFS. What the host can see of a CORE (spec/10_state.md R36): the flags, the capacity, and the digest buffer
once it is finished. -/

namespace Sys2Proof.Machine

/-- R36: two instances the host cannot tell apart. -/
structure AlikeToHost (s s' : State) : Prop where
  busy : busyFlag s' = busyFlag s
  done : doneFlag s' = doneFlag s
  cap : s'.msgCap = s.msgCap
  digest : doneFlag s = true → s'.DIGEST = s.DIGEST

/-- R36: two outcomes with the same answer, in states the host cannot tell apart. -/
def AnsweredAlike (s s' : State) (r r' : Result) : Prop :=
  ∃ t t' code data, r = .next t ∧ r' = .next t' ∧ Answered code data s t ∧ Answered code data s' t' ∧ AlikeToHost t t'

/-- The same response, after effects that the host cannot tell apart. -/
theorem answeredAlike_respond {s s' u u' : State} {r r' : Result} {c : RspCode} {d : Byte}
    (h : r = .next (respond c d u)) (h' : r' = .next (respond c d u')) (noResponse : u.responses = s.responses)
    (noResponse' : u'.responses = s'.responses) (alike : AlikeToHost u u') : AnsweredAlike s s' r r' :=
  ⟨_, _, c.bits, d, h, h', congrArg (· ++ [c.bits ++ d]) noResponse, congrArg (· ++ [c.bits ++ d]) noResponse',
    alike.1, alike.2, alike.3, alike.4⟩

/-- The same rejection. -/
theorem answeredAlike_reject {s s' : State} {r r' : Result} {c : RspCode} (h : r = .next (reject c s))
    (h' : r' = .next (reject c s')) (alike : AlikeToHost s s') : AnsweredAlike s s' r r' :=
  answeredAlike_respond h h' rfl rfl alike

/-- R36: the checks of a host command look at flags and capacity, and its answer at flags and a finished digest. -/
theorem exec_answeredAlike {s s' : State} {i : Instr} (hi : i.isCommand = true) (alike : AlikeToHost s s') :
    AnsweredAlike s s' (exec i s) (exec i s') := by
  obtain ⟨sameBusy, sameDone, sameCap, sameDigest⟩ := alike
  have alike : AlikeToHost s s' := ⟨sameBusy, sameDone, sameCap, sameDigest⟩
  cases i with
  | setlen n =>
    cases flag : busyFlag s
    · by_cases range : s.msgCap.val < n.toNat
      · exact answeredAlike_reject (exec_setlen_of_out_of_range flag range)
          (exec_setlen_of_out_of_range (sameBusy.trans flag) (by rwa [sameCap])) alike
      · have within := Nat.not_lt.mp range
        exact answeredAlike_respond (exec_setlen_of_in_range flag within)
          (exec_setlen_of_in_range (sameBusy.trans flag) (by rwa [sameCap])) rfl rfl
          ⟨sameBusy, sameDone, sameCap, sameDigest⟩
    · exact answeredAlike_reject (exec_setlen_of_busy flag) (exec_setlen_of_busy (sameBusy.trans flag)) alike
  | wrmsg addr byte =>
    cases flag : busyFlag s
    · by_cases range : s.msgCap.val ≤ addr.toNat
      · exact answeredAlike_reject (exec_wrmsg_of_out_of_range byte flag range)
          (exec_wrmsg_of_out_of_range byte (sameBusy.trans flag) (by rwa [sameCap])) alike
      · have below := Nat.not_le.mp range
        exact answeredAlike_respond (exec_wrmsg_of_in_range byte flag below)
          (exec_wrmsg_of_in_range byte (sameBusy.trans flag) (by rwa [sameCap])) rfl rfl
          ⟨sameBusy, sameDone, sameCap, sameDigest⟩
    · exact answeredAlike_reject (exec_wrmsg_of_busy byte flag) (exec_wrmsg_of_busy byte (sameBusy.trans flag)) alike
  | start =>
    cases flag : busyFlag s
    · exact answeredAlike_respond (exec_start_of_free flag) (exec_start_of_free (sameBusy.trans flag)) rfl rfl
        ⟨rfl, rfl, sameCap, fun h => by cases h⟩
    · exact answeredAlike_reject (exec_start_of_busy flag) (exec_start_of_busy (sameBusy.trans flag)) alike
  | rdstat =>
    have sameStatus : statusByte s' = statusByte s := by rw [statusByte, statusByte, sameBusy, sameDone]
    exact answeredAlike_respond (exec_rdstat s) (sameStatus ▸ exec_rdstat s') rfl rfl alike
  | rddig n =>
    cases flag : doneFlag s
    · exact answeredAlike_reject (exec_rddig_of_not_done flag) (exec_rddig_of_not_done (sameDone.trans flag)) alike
    · by_cases range : 63 < n.toNat
      · exact answeredAlike_reject (exec_rddig_of_out_of_range flag range)
          (exec_rddig_of_out_of_range (sameDone.trans flag) range) alike
      · have below : n.toNat < 64 := Nat.lt_succ_of_le (Nat.not_lt.mp range)
        have answer' := exec_rddig_of_in_range (sameDone.trans flag) below
        simp only [sameDigest flag] at answer'
        exact answeredAlike_respond (exec_rddig_of_in_range flag below) answer' rfl rfl alike
  | _ => cases hi

/-- Settles O46: an illegal word is rejected in both instances, and a command is answered alike. -/
theorem hostSeesFlagsAndDigestOnly : Obligations.HostSeesFlagsAndDigestOnly := by
  intro s s' w rest rest' input input' busy done cap digest
  have alike : AlikeToHost (s.setInputs rest) (s'.setInputs rest') := ⟨busy, done, cap, digest⟩
  have answered : AnsweredAlike (s.setInputs rest) (s'.setInputs rest') (step s) (step s') := by
    rw [step_command input, step_command input']
    cases legal : commandWellFormed w with
    | false => exact answeredAlike_reject (processCommand_of_illegal legal) (processCommand_of_illegal legal) alike
    | true =>
      obtain ⟨i, decoded⟩ := (commandWellFormed_iff w).mp legal
      rw [processCommand_of_ok decoded, processCommand_of_ok decoded]
      exact exec_answeredAlike (decodeCommand_isCommand decoded) alike
  obtain ⟨t, t', code, data, next, next', answer, answer', busy', done', cap', digest'⟩ := answered
  exact ⟨t, t', code, data, next, next', answer, answer', busy', done', cap', digest'⟩

end Sys2Proof.Machine
end

section
/-! PROOFS. Message memory in its canonical form (spec/20_memory.md): the bytes it holds determine it. -/

namespace Sys2Proof.Machine

/-- Below its lowest address a canonical memory holds nothing. -/
theorem Memory.read_eq_none_of_lt (m : Memory) (a : Nat) (h : m.wf = true) (below : ∀ c ∈ m.head?, a < c.1) :
    m.read a = none := by
  induction m with
  | nil => rfl
  | cons c m ih =>
    obtain ⟨x, b⟩ := c
    have lower : a < x := below (x, b) rfl
    obtain ⟨rising, tail⟩ := (Memory.wf_cons x b m).mp h
    rw [Memory.read, if_neg (Nat.ne_of_lt lower)]
    exact ih tail fun c hc => lower.trans (rising c hc)

/-- A canonical memory that starts above `a` differs from one that starts at `a`. -/
theorem Memory.not_read_alike_of_lt {m m' : Memory} {a a' : Nat} {b b' : Byte} (h' : Memory.wf ((a', b') :: m') = true)
    (alike : Memory.read ((a, b) :: m) a = Memory.read ((a', b') :: m') a) : ¬ a < a' := by
  intro lower
  rw [Memory.read_eq_none_of_lt _ a h' (by simpa using lower)] at alike
  simp [Memory.read] at alike

/-- Settles O42: the lowest addresses agree, with their bytes, and so do the rest of the two lists. -/
theorem canonicalMemoriesAreEqual : Obligations.CanonicalMemoriesAreEqual := by
  intro m
  induction m with
  | nil =>
    intro m' _ _ alike
    cases m' with
    | nil => rfl
    | cons c m' => exact absurd (alike c.1) (by simp [Memory.read])
  | cons c m ih =>
    intro m' h h' alike
    obtain ⟨a, b⟩ := c
    cases m' with
    | nil => exact absurd (alike a) (by simp [Memory.read])
    | cons c' m' =>
      obtain ⟨a', b'⟩ := c'
      obtain rfl : a = a' := Nat.le_antisymm (Nat.not_lt.mp (Memory.not_read_alike_of_lt h (alike a').symm))
        (Nat.not_lt.mp (Memory.not_read_alike_of_lt h' (alike a)))
      obtain ⟨rising, tail⟩ := (Memory.wf_cons a b m).mp h
      obtain ⟨rising', tail'⟩ := (Memory.wf_cons a b' m').mp h'
      obtain rfl : b = b' := by simpa [Memory.read] using alike a
      obtain rfl : m = m' := by
        refine ih m' tail tail' fun x => ?_
        by_cases hx : x = a
        · rw [hx, Memory.read_eq_none_of_lt m a tail rising, Memory.read_eq_none_of_lt m' a tail' rising']
        · simpa [Memory.read, hx] using alike x
      rfl

end Sys2Proof.Machine
end

section
/-! PROOFS. The sequencer (spec/44_sequencer.md R206, R213, spec/10_state.md, table of all state): the table of its
transitions, what control depends on, and who writes what. -/

namespace Sys2Proof.Machine

/-! ## Steps that stop -/

/-- R260: the processing of a command word always goes on. -/
theorem processCommand_next (w : CommandWord) (s : State) : ∃ t, processCommand w s = .next t := by
  rcases processCommand_cases w s with ⟨_, _, outcome⟩ | ⟨_, _, _, _, _, _, outcome, _⟩
  · exact ⟨_, outcome⟩
  · exact ⟨_, outcome⟩

/-- R260: a step goes on, or CORE has its turn in PAD and the block faults. -/
theorem step_next_or_fault (s : State) :
    (∃ t, step s = .next t) ∨
      (∃ f, step s = .fault f ∧ nextEvent s = .coreStep ∧ s.PHASE = .pad ∧ padBlock (dropEvent s) = .error f) := by
  rcases step_cases s with ⟨turn, outcome⟩ | ⟨_, outcome⟩ | ⟨w, _, outcome⟩
  · rcases coreStep_cases (dropEvent s) with ⟨t, next, _⟩ | ⟨f, fault, hp, block⟩
    · exact .inl ⟨t, outcome.trans next⟩
    · exact .inr ⟨f, outcome.trans fault, turn, hp, block⟩
  · exact .inl ⟨_, outcome⟩
  · obtain ⟨t, next⟩ := processCommand_next w (dropEvent s)
    exact .inl ⟨t, outcome.trans next⟩

/-- Settles O47: every step goes on but PAD, which can fault. -/
theorem onlyPadCanStop : Obligations.OnlyPadCanStop := by
  intro s
  rcases step_next_or_fault s with ⟨t, next⟩ | ⟨f, fault, turn, hp, _⟩
  · exact ⟨fun _ h => (nomatch next.symm.trans h), fun _ h => (nomatch next.symm.trans h)⟩
  · exact ⟨fun _ _ => ⟨turn, hp⟩, fun _ h => (nomatch fault.symm.trans h)⟩

/-- Settles O48: the block of a written message has no fault. -/
theorem writtenMessageNeverFaults : Obligations.WrittenMessageNeverFaults := by
  intro s _ written
  rcases step_next_or_fault s with next | ⟨f, _, _, _, block⟩
  · exact next
  · obtain ⟨i, _, below, _, read⟩ := padBlock_error block
    obtain ⟨b, byte⟩ := written i below
    cases read.symm.trans byte

/-! ## The table of transitions -/

/-- R206, R209: a command word changes the phase only where it is a START that is accepted. -/
theorem processCommand_PHASE {w : CommandWord} {s t : State} (h : processCommand w s = .next t) :
    t.PHASE = if decodeCommand w = .ok .start ∧ busyFlag s = false then .init else s.PHASE := by
  by_cases started : decodeCommand w = .ok .start
  · rw [processCommand_of_ok started] at h
    cases flag : busyFlag s
    · rw [exec_start_of_free flag] at h
      obtain rfl := Host.Outcome.next.inj h
      simp [started]
    · rw [exec_start_of_busy flag] at h
      obtain rfl := Host.Outcome.next.inj h
      simp [reject_eq]
  · rw [if_neg fun both => started both.1]
    rcases processCommand_cases w s with ⟨_, _, rejected⟩ | ⟨i, c, d, u, decoded, _, answered, effect, _⟩
    · obtain rfl := eq_of_next rejected h
      rfl
    · obtain rfl := eq_of_next answered h
      exact effect.keeps_digest.2 fun isStart => started (isStart ▸ decoded)

/-- Settles O43: each transition of CORE is a row of the table, and a command word is START or changes no phase. -/
theorem phaseTransitionTable : Obligations.PhaseTransitionTable := by
  intro s t inv next
  rcases step_cases s with ⟨turn, outcome⟩ | ⟨event, outcome⟩ | ⟨w, event, outcome⟩
  · have core : CoreTurn (s.setInputs s.inputs.tail) t := coreTurn_of_coreStep (outcome.symm.trans next)
    refine .inr (.inr ⟨turn, ?_⟩)
    cases core with
    | rest hp =>
      rcases hp with hp | hp
      · simp [show s.PHASE = .idle from hp]
      · simp [show s.PHASE = .done from hp]
    | init hp => simpa [show s.PHASE = .init from hp] using toNat_ofNat_nblocks s.LEN
    | pad b hp => simp [show s.PHASE = .pad from hp]
    | wcopy hp => simp [show s.PHASE = .wcopy from hp]
    | expandNext hp below =>
      replace below : s.J.toNat < 63 := below
      simpa [show s.PHASE = .expand from hp, below] using toNat_succ_of_lt below
    | expandLast hp last => simp [show s.PHASE = .expand from hp, show s.J.toNat = 63 from last]
    | ldwv hp => simp [show s.PHASE = .ldwv from hp]
    | roundNext hp below =>
      replace below : s.J.toNat < 63 := below
      simpa [show s.PHASE = .round from hp, below] using toNat_succ_of_lt below
    | roundLast hp last => simp [show s.PHASE = .round from hp, show s.J.toNat = 63 from last]
    | ffwdNext hp another =>
      replace hp : s.PHASE = .ffwd := hp
      replace another : s.BLK.toNat + 1 < s.NBLK.toNat := another
      simpa [hp, another] using toNat_blk_succ_of_invariant inv hp
    | ffwdLast hp last =>
      replace hp : s.PHASE = .ffwd := hp
      have final : s.BLK.toNat + 1 = s.NBLK.toNat := Nat.le_antisymm (inv.blkBelow (phaseInBlock_of_eq hp rfl)) last
      simpa [hp, final] using s.NBLK.isLt
    | render hp => simp [show s.PHASE = .render from hp]
  · obtain rfl := eq_of_next outcome next
    exact .inl ⟨event, rfl, rfl⟩
  · have phase := processCommand_PHASE (outcome.symm.trans next)
    simp only [busyFlag_eq_false] at phase
    refine .inr (.inl ⟨w, event, ?_⟩)
    split
    · next accepted => exact phase.trans (if_pos accepted)
    · next other => exact phase.trans (if_neg other)

/-! ## Control and data -/

/-- R213: `PHASE`, `J`, `BLK` and `NBLK` after a turn of CORE, from these four and `LEN`. -/
def controlAfter (p : Phase) (j : BitVec 6) (blk nblk len : Word64) : Phase × BitVec 6 × Word64 × Word64 :=
  match p with
  | .idle => (.idle, j, blk, nblk)
  | .init => (.pad, j, 0#64, BitVec.ofNat 64 (nblocks len.toNat))
  | .pad => (.wcopy, j, blk, nblk)
  | .wcopy => (.expand, 16#6, blk, nblk)
  | .expand => if j.toNat < 63 then (.expand, j + 1#6, blk, nblk) else (.ldwv, j, blk, nblk)
  | .ldwv => (.round, 0#6, blk, nblk)
  | .round => if j.toNat < 63 then (.round, j + 1#6, blk, nblk) else (.ffwd, j, blk, nblk)
  | .ffwd => (phaseAfterBlock blk nblk, j, blk + 1#64, nblk)
  | .render => (.done, j, blk, nblk)
  | .done => (.done, j, blk, nblk)

/-- R213: a turn of CORE computes control from control and `LEN` alone. -/
theorem CoreTurn.control {s t : State} (turn : CoreTurn s t) :
    (t.PHASE, t.J, t.BLK, t.NBLK) = controlAfter s.PHASE s.J s.BLK s.NBLK s.LEN := by
  cases turn with
  | rest hp => rcases hp with hp | hp <;> simp [controlAfter, hp]
  | init hp => simp [controlAfter, hp]
  | pad b hp => simp [controlAfter, hp]
  | wcopy hp => simp [controlAfter, hp]
  | expandNext hp below => simp [controlAfter, hp, below]
  | expandLast hp last => simp [controlAfter, hp, last]
  | ldwv hp => simp [controlAfter, hp]
  | roundNext hp below => simp [controlAfter, hp, below]
  | roundLast hp last => simp [controlAfter, hp, last]
  | ffwdNext hp another => simp [controlAfter, hp, phaseAfterBlock_of_lt another]
  | ffwdLast hp last => simp [controlAfter, hp, phaseAfterBlock_of_le last]
  | render hp => simp [controlAfter, hp]

/-- 10_state.md, table of all state: the pieces CORE never writes. -/
theorem CoreTurn.keeps_message {s t : State} (turn : CoreTurn s t) :
    t.LEN = s.LEN ∧ t.MSG = s.MSG ∧ t.msgCap = s.msgCap ∧ t.inputs = s.inputs := by
  cases turn <;> simp

/-- 10_state.md, table of all state: the pieces no host command writes. -/
theorem CommandEffect.keeps_registers {s u : State} {i : Instr} {c : RspCode} (h : CommandEffect s i c u) :
    u.H = s.H ∧ u.V = s.V ∧ u.W = s.W ∧ u.B = s.B ∧ u.J = s.J ∧ u.BLK = s.BLK ∧ u.NBLK = s.NBLK ∧
      u.DIGEST = s.DIGEST ∧ u.msgCap = s.msgCap ∧ u.inputs = s.inputs := by
  cases h <;> simp

/-- R225: what a host command writes beside its response is the effect of the command. -/
theorem processCommand_effect {w : CommandWord} {s t : State} (h : processCommand w s = .next t) :
    ∃ c d u, t = respond c d u ∧ (u = s ∨ ∃ i, decodeCommand w = .ok i ∧ CommandEffect s i c u) := by
  rcases processCommand_cases w s with ⟨_, _, rejected⟩ | ⟨i, c, d, u, decoded, _, answered, effect, _⟩
  · exact ⟨_, _, s, eq_of_next rejected h, .inl rfl⟩
  · exact ⟨c, d, u, eq_of_next answered h, .inr ⟨i, decoded, effect⟩⟩

/-- 10_state.md, table of all state: a host command leaves the registers of CORE alone. -/
theorem processCommand_keeps_registers {w : CommandWord} {s t : State} (h : processCommand w s = .next t) :
    t.H = s.H ∧ t.V = s.V ∧ t.W = s.W ∧ t.B = s.B ∧ t.J = s.J ∧ t.BLK = s.BLK ∧ t.NBLK = s.NBLK ∧
      t.DIGEST = s.DIGEST ∧ t.msgCap = s.msgCap ∧ t.inputs = s.inputs := by
  obtain ⟨c, d, u, rfl, rfl | ⟨i, _, effect⟩⟩ := processCommand_effect h
  · simp
  · simpa using effect.keeps_registers

/-- R226: `LEN` after a command word, from `BUSY`, the capacity and `LEN`. -/
def lengthAfter (w : CommandWord) (busy : Bool) (cap : MsgCap) (len : Word64) : Word64 :=
  match decodeCommand w with
  | .ok (.setlen n) => if busy = false ∧ n.toNat ≤ cap.val then n else len
  | _ => len

/-- R226: a command word changes `LEN` only where it is a SETLEN that is accepted. -/
theorem processCommand_LEN {w : CommandWord} {s t : State} (h : processCommand w s = .next t) :
    t.LEN = lengthAfter w (busyFlag s) s.msgCap s.LEN := by
  by_cases isSetlen : ∃ n, decodeCommand w = .ok (.setlen n)
  · obtain ⟨n, decoded⟩ := isSetlen
    rw [processCommand_of_ok decoded] at h
    cases flag : busyFlag s
    · by_cases within : n.toNat ≤ s.msgCap.val
      · obtain rfl := eq_of_next (exec_setlen_of_in_range flag within) h
        simp [lengthAfter, decoded, within]
      · obtain rfl := eq_of_next (exec_setlen_of_out_of_range flag (Nat.not_le.mp within)) h
        simp [lengthAfter, decoded, within, reject_eq]
    · obtain rfl := eq_of_next (exec_setlen_of_busy flag) h
      simp [lengthAfter, decoded, reject_eq]
  · have other : lengthAfter w (busyFlag s) s.msgCap s.LEN = s.LEN := by
      unfold lengthAfter
      split
      · next n decoded => exact absurd ⟨n, decoded⟩ isSetlen
      · rfl
    rw [other]
    obtain ⟨c, d, u, rfl, rfl | ⟨i, decoded, effect⟩⟩ := processCommand_effect h
    · rfl
    · cases effect with
      | none => rfl
      | setlen n => exact absurd ⟨n, decoded⟩ isSetlen
      | wrmsg => rfl
      | start => rfl

/-- Settles O44: a turn of CORE computes control from control, and a command word leaves it alone but for START and
SETLEN, whose checks are on control. -/
theorem controlIgnoresData : Obligations.ControlIgnoresData := by
  rintro s s' t t' ⟨phase, j, blk, nblk, len, cap, inputs⟩ next next'
  have sameEvent : nextEvent s' = nextEvent s := by rw [nextEvent, nextEvent, inputs]
  rw [step] at next next'
  rw [sameEvent] at next'
  cases event : nextEvent s with
  | coreStep =>
    rw [event] at next next'
    have core := coreTurn_of_coreStep next
    have core' := coreTurn_of_coreStep next'
    have control : (t'.PHASE, t'.J, t'.BLK, t'.NBLK) = (t.PHASE, t.J, t.BLK, t.NBLK) := by
      rw [core.control, core'.control]
      simp [dropEvent_eq, phase, j, blk, nblk, len]
    obtain ⟨sameLEN, _, sameCap, sameInputs⟩ := core.keeps_message
    obtain ⟨sameLEN', _, sameCap', sameInputs'⟩ := core'.keeps_message
    simp only [Prod.mk.injEq] at control
    obtain ⟨phase', j', blk', nblk'⟩ := control
    exact ⟨⟨phase', by rw [sameLEN, sameLEN']; exact len, by rw [sameCap, sameCap']; exact cap,
      by rw [sameInputs, sameInputs']; exact congrArg List.tail inputs⟩, fun _ => ⟨j', blk', nblk'⟩⟩
  | command w =>
    rw [event] at next next'
    have flag : busyFlag (dropEvent s') = busyFlag (dropEvent s) := congrArg phaseBusy phase
    obtain ⟨-, -, -, -, sameJ, sameBLK, sameNBLK, -, sameCap, sameInputs⟩ := processCommand_keeps_registers next
    obtain ⟨-, -, -, -, sameJ', sameBLK', sameNBLK', -, sameCap', sameInputs'⟩ := processCommand_keeps_registers next'
    refine ⟨⟨?phase, ?len, by rw [sameCap, sameCap']; exact cap,
      by rw [sameInputs, sameInputs']; exact congrArg List.tail inputs⟩, fun _ => ⟨?j, ?blk, ?nblk⟩⟩
    case phase =>
      rw [processCommand_PHASE next, processCommand_PHASE next', flag, show (dropEvent s').PHASE = _ from phase]
      rfl
    case len =>
      rw [processCommand_LEN next, processCommand_LEN next', flag, show (dropEvent s').LEN = _ from len,
        show (dropEvent s').msgCap = _ from cap]
      rfl
    case j => rw [sameJ, sameJ']; exact j
    case blk => rw [sameBLK, sameBLK']; exact blk
    case nblk => rw [sameNBLK, sameNBLK']; exact nblk
  | reset =>
    rw [event] at next next'
    obtain rfl := Host.Outcome.next.inj next
    obtain rfl := Host.Outcome.next.inj next'
    exact ⟨⟨rfl, rfl, cap, congrArg List.tail inputs⟩, fun h => absurd rfl h⟩

/-! ## Who writes what -/

/-- 10_state.md, table of all state: the phases in which CORE writes each of its registers. -/
theorem CoreTurn.writers {s t : State} (turn : CoreTurn s t) :
    (t.H ≠ s.H → s.PHASE = .init ∨ s.PHASE = .ffwd) ∧ (t.V ≠ s.V → s.PHASE = .ldwv ∨ s.PHASE = .round) ∧
    (t.W ≠ s.W → s.PHASE = .wcopy ∨ s.PHASE = .expand) ∧ (t.B ≠ s.B → s.PHASE = .pad) ∧
    (t.PHASE ≠ s.PHASE → busyFlag s = true) ∧
    (t.J ≠ s.J → s.PHASE = .wcopy ∨ s.PHASE = .expand ∨ s.PHASE = .ldwv ∨ s.PHASE = .round) ∧
    (t.BLK ≠ s.BLK → s.PHASE = .init ∨ s.PHASE = .ffwd) ∧ (t.NBLK ≠ s.NBLK → s.PHASE = .init) ∧
    (t.DIGEST ≠ s.DIGEST → s.PHASE = .render) := by
  cases turn with
  | rest => simp
  | init hp => simp [hp, busyFlag, phaseBusy]
  | pad b hp => simp [hp, busyFlag, phaseBusy]
  | wcopy hp => simp [hp, busyFlag, phaseBusy]
  | expandNext hp => simp [hp]
  | expandLast hp => simp [hp, busyFlag, phaseBusy]
  | ldwv hp => simp [hp, busyFlag, phaseBusy]
  | roundNext hp => simp [hp]
  | roundLast hp => simp [hp, busyFlag, phaseBusy]
  | ffwdNext hp => simp [hp, busyFlag, phaseBusy]
  | ffwdLast hp => simp [hp, busyFlag, phaseBusy]
  | render hp => simp [hp, busyFlag, phaseBusy]

/-- 10_state.md, table of all state: the commands that write `PHASE`, `LEN` and a byte of `MSG`, each with
`BUSY = 0`. -/
theorem CommandEffect.writers {s u : State} {i : Instr} {c : RspCode} (h : CommandEffect s i c u) :
    (u.PHASE ≠ s.PHASE → busyFlag s = false ∧ i = .start) ∧
    (u.LEN ≠ s.LEN → busyFlag s = false ∧ ∃ n, i = .setlen n) ∧
    ∀ a, memRead .msg a u ≠ memRead .msg a s → busyFlag s = false ∧ ∃ n b, i = .wrmsg n b ∧ n.toNat = a := by
  cases h with
  | none => simp
  | setlen n free => simp [free]
  | wrmsg n byte free =>
    refine ⟨fun h => absurd rfl h, fun h => absurd rfl h, fun a written => ⟨free, n, byte, rfl, ?_⟩⟩
    by_contra other
    exact written (memRead_msg_writeMsg_other s byte (Ne.symm other))
  | start free => simp [free]

/-- Settles O45: CORE writes its registers in their phases, and a host command what its effect says. -/
theorem eachPieceHasItsWriters : Obligations.EachPieceHasItsWriters := by
  intro s t next notReset
  rcases step_cases s with ⟨turn, outcome⟩ | ⟨event, _⟩ | ⟨w, event, outcome⟩
  · have core : CoreTurn (dropEvent s) t := coreTurn_of_coreStep (outcome.symm.trans next)
    obtain ⟨len, msg, cap, _⟩ := core.keeps_message
    obtain ⟨h, v, w, b, phase, j, blk, nblk, digest⟩ := core.writers
    exact ⟨fun x => ⟨turn, h x⟩, fun x => ⟨turn, v x⟩, fun x => ⟨turn, w x⟩, fun x => ⟨turn, b x⟩,
      fun x => .inl ⟨phase x, turn⟩, fun x => ⟨turn, j x⟩, fun x => ⟨turn, blk x⟩, fun x => ⟨turn, nblk x⟩,
      fun x => absurd len x, fun a x => absurd (memRead_msg_congr msg cap a) x, fun x => ⟨turn, digest x⟩, cap⟩
  · exact absurd event notReset
  · have processed := outcome.symm.trans next
    obtain ⟨h, v, w', b, j, blk, nblk, digest, cap, _⟩ := processCommand_keeps_registers processed
    have host : (t.PHASE ≠ s.PHASE → busyFlag s = false ∧ decodeCommand w = .ok .start) ∧
        (t.LEN ≠ s.LEN → busyFlag s = false ∧ ∃ n, decodeCommand w = .ok (.setlen n)) ∧
        ∀ a, memRead .msg a t ≠ memRead .msg a s → busyFlag s = false ∧
          ∃ n b, decodeCommand w = .ok (.wrmsg n b) ∧ n.toNat = a := by
      obtain ⟨c, d, u, rfl, rfl | ⟨i, decoded, effect⟩⟩ := processCommand_effect processed
      · exact ⟨fun x => absurd rfl x, fun x => absurd rfl x, fun a x => absurd rfl x⟩
      · obtain ⟨phase, len, msg⟩ := effect.writers
        refine ⟨fun x => ?_, fun x => ?_, fun a x => ?_⟩
        · obtain ⟨free, rfl⟩ := phase x
          exact ⟨free, decoded⟩
        · obtain ⟨free, n, rfl⟩ := len x
          exact ⟨free, n, decoded⟩
        · rw [memRead_respond] at x
          obtain ⟨free, n, byte, rfl, address⟩ := msg a x
          exact ⟨free, n, byte, decoded, address⟩
    obtain ⟨phase, len, msg⟩ := host
    refine ⟨fun x => absurd h x, fun x => absurd v x, fun x => absurd w' x, fun x => absurd b x, fun x => ?phase,
      fun x => absurd j x, fun x => absurd blk x, fun x => absurd nblk x, fun x => ?len, fun a x => ?msg,
      fun x => absurd digest x, cap⟩
    case phase =>
      obtain ⟨free, started⟩ := phase x
      exact .inr ⟨free, w, event, started⟩
    case len =>
      obtain ⟨free, n, decoded⟩ := len x
      exact ⟨free, w, n, event, decoded⟩
    case msg =>
      obtain ⟨free, n, byte, decoded, address⟩ := msg a x
      exact ⟨free, w, n, byte, event, decoded, address⟩

end Sys2Proof.Machine
end

section
/-! PROOFS. A system of several COREs (spec/60_exceptions.md R271, spec/10_state.md R33): a step of the system writes the
state at one place. -/

namespace Sys2Proof.Machine

/-- R271: a step of number `k` replaces the state at `k`. -/
theorem systemStep_eq_next {n : Nat} {k : Fin n} {sys sk : System n} :
    systemStep k sys = .next sk ↔ ∃ t, step sys[k] = .next t ∧ sk = sys.set k t := by
  unfold systemStep
  cases step sys[k] <;> simp [eq_comm]

/-- Settles O60: writes to two places of a vector are independent. -/
theorem instancesAreIndependent : Obligations.InstancesAreIndependent := by
  intro n k l sys sk apart next
  have places : k.val ≠ l.val := Fin.val_ne_of_ne apart
  obtain ⟨t, stepK, rfl⟩ := systemStep_eq_next.mp next
  have keepsL : (sys.set k t)[l] = sys[l] := Vector.getElem_set_ne k.isLt l.isLt places
  refine ⟨keepsL, fun skl next' => ?_⟩
  obtain ⟨u, stepL, rfl⟩ := systemStep_eq_next.mp next'
  rw [keepsL] at stepL
  have keepsK : (sys.set l u)[k] = sys[k] := Vector.getElem_set_ne l.isLt k.isLt places.symm
  refine ⟨_, systemStep_eq_next.mpr ⟨u, stepL, rfl⟩, systemStep_eq_next.mpr ⟨t, keepsK ▸ stepK, ?_⟩⟩
  exact Vector.set_comm t u places

end Sys2Proof.Machine
end

section
/-! PROOFS. A computation stays on its message (spec/44_sequencer.md R209, R211, spec/42_compression.md R168): host
commands change nothing of a busy CORE, and each turn of CORE brings the block register and the hash state to their next
value. -/

namespace Sys2Proof.Machine

/-- R211: what the computation has reached depends on `PHASE`, `H`, `B` and `BLK` only. -/
theorem ComputesDigest.congr {m : List Byte} {s t : State} (h : ComputesDigest m s) (phase : t.PHASE = s.PHASE)
    (sameH : t.H = s.H) (sameB : t.B = s.B) (sameBLK : t.BLK = s.BLK) : ComputesDigest m t where
  hash := by rw [phase, sameH, sameBLK]; exact h.hash
  block := by rw [phase, sameB, sameBLK]; exact h.block
  last := by rw [phase, sameH]; exact h.last

/-- R211: from WCOPY to FFWD a turn within the block keeps hash state, block and index. -/
theorem ComputesDigest.within_block {m : List Byte} {s t : State} (h : ComputesDigest m s)
    (inBlock : phaseInBlock s.PHASE = true) (assembled : s.PHASE ≠ .pad) (unfinished : t.PHASE ≠ .render := by simp)
    (sameH : t.H = s.H := by simp) (sameB : t.B = s.B := by simp) (sameBLK : t.BLK = s.BLK := by simp) :
    ComputesDigest m t where
  hash _ := by rw [sameH, sameBLK]; exact h.hash inBlock
  block _ _ := by rw [sameB, sameBLK]; exact h.block inBlock assembled
  last final := absurd final unfinished

/-- R167: under the invariant FFWD completes the compression of the block. -/
theorem feedForward_of_invariant {s : State} (inv : Invariant s) (hp : s.PHASE = .ffwd) :
    feedForward s.H s.V = compress s.H (expand s.B) := by
  rw [inv.varsWhole hp, inv.scheduleWhole (.inr (.inr hp)), compress]

/-- R211: under the invariant FFWD brings the hash state of the next block. -/
theorem feedForward_of_computesDigest {m : List Byte} {s : State} (inv : Invariant s) (h : ComputesDigest m s)
    (hp : s.PHASE = .ffwd) : feedForward s.H s.V = hashBlocks (padMessage m) (s.BLK.toNat + 1) := by
  have inBlock := phaseInBlock_of_eq hp rfl
  rw [feedForward_of_invariant inv hp, h.hash inBlock, h.block inBlock (by simp [hp]), hashBlocks]

/-- R124, R211: PAD on the message `m` fills the block register with the block of `m`. -/
theorem eq_blockOf_of_padBlock {m : List Byte} {s : State} {b : Vector Word 16} (inv : Invariant s)
    (holds : HoldsMessage m s) (inBlock : phaseInBlock s.PHASE = true) (h : padBlock s = .ok b) :
    b = blockOf (padMessage m) s.BLK.toNat := by
  have expected := exec_pad_of_holdsMessage holds (inv.blkBelow inBlock) (holds.1 ▸ inv.nblkIs inBlock)
  exact congrArg State.B (eq_of_next expected (execPad_of_ok h))

/-- R211: each turn of CORE keeps the computation on `m`. -/
theorem CoreTurn.keeps_computation {m : List Byte} {s t : State} (inv : Invariant s) (busy : busyFlag s = true)
    (holds : HoldsMessage m s) (h : ComputesDigest m s) (turn : CoreTurn s t) :
    ComputesDigest m t ∧ (t.PHASE = .done → t.DIGEST = digest m) := by
  cases turn with
  | rest hp => exact absurd hp (not_rest_of_busy busy)
  | init hp => exact ⟨⟨fun _ => rfl, fun _ notPad => absurd rfl notPad, by simp⟩, by simp⟩
  | pad b hp block =>
    have inBlock := phaseInBlock_of_eq hp rfl
    have ofMessage := eq_blockOf_of_padBlock inv holds inBlock block
    exact ⟨⟨fun _ => h.hash inBlock, fun _ _ => ofMessage, by simp⟩, by simp⟩
  | wcopy hp => exact ⟨h.within_block (phaseInBlock_of_eq hp rfl) (by simp [hp]), by simp⟩
  | expandNext hp => exact ⟨h.within_block (phaseInBlock_of_eq hp rfl) (by simp [hp]) (by simp [hp]), by simp [hp]⟩
  | expandLast hp => exact ⟨h.within_block (phaseInBlock_of_eq hp rfl) (by simp [hp]), by simp⟩
  | ldwv hp => exact ⟨h.within_block (phaseInBlock_of_eq hp rfl) (by simp [hp]), by simp⟩
  | roundNext hp => exact ⟨h.within_block (phaseInBlock_of_eq hp rfl) (by simp [hp]) (by simp [hp]), by simp [hp]⟩
  | roundLast hp => exact ⟨h.within_block (phaseInBlock_of_eq hp rfl) (by simp [hp]), by simp⟩
  | ffwdNext hp another =>
    have next := feedForward_of_computesDigest inv h hp
    rw [← toNat_blk_succ_of_invariant inv hp] at next
    exact ⟨⟨fun _ => next, fun _ notPad => absurd rfl notPad, by simp⟩, by simp⟩
  | ffwdLast hp last =>
    have inBlock := phaseInBlock_of_eq hp rfl
    have final := feedForward_of_computesDigest inv h hp
    have blocks : s.BLK.toNat + 1 = nblocks m.length :=
      (Nat.le_antisymm (inv.blkBelow inBlock) last).trans ((inv.nblkIs inBlock).trans (congrArg nblocks holds.1))
    rw [blocks] at final
    exact ⟨⟨by simp [phaseInBlock], by simp [phaseInBlock], fun _ => final⟩, by simp⟩
  | render hp =>
    have rendered : Machine.render s.H = digest m := congrArg Machine.render (h.last hp)
    exact ⟨⟨by simp [phaseInBlock], by simp [phaseInBlock], by simp⟩, fun _ => rendered⟩

/-- Settles O53: a command word leaves a busy CORE alone, and a turn of CORE keeps the computation. -/
theorem computationStaysOnItsMessage : Obligations.ComputationStaysOnItsMessage := by
  intro m s t inv busy holds computes notReset next
  rcases step_cases s with ⟨_, outcome⟩ | ⟨event, _⟩ | ⟨w, _, outcome⟩
  · have core := coreTurn_of_coreStep (outcome.symm.trans next)
    obtain ⟨len, msg, cap, _⟩ := core.keeps_message
    have computes' : ComputesDigest m (dropEvent s) := computes.congr rfl rfl rfl rfl
    refine ⟨holdsMessage_congr holds len msg cap, ?_⟩
    exact core.keeps_computation (invariant_setInputs inv s.inputs.tail) busy holds computes'
  · exact absurd event notReset
  · obtain ⟨c, d, answered⟩ := processCommand_of_busy (s := dropEvent s) w busy
    obtain rfl := eq_of_next (outcome.trans answered) next
    exact ⟨holdsMessage_congr holds rfl rfl rfl, computes.congr rfl rfl rfl rfl,
      fun done => absurd (.inr done) (not_rest_of_busy busy)⟩

end Sys2Proof.Machine
end

section
/-! PROOFS. What CORE computes with a silent host (spec/41_scheduler.md R144, spec/42_compression.md R167,
spec/44_sequencer.md R210, R211): the run from INIT is put together from the runs of the scheduler, of the rounds and
of a block, with CORE busy before the last state. -/

namespace Sys2Proof.Machine

/-! ## Busy runs -/

/-- `k` steps lead from `s` to `t`, and CORE is busy in each state before `t`. -/
def BusyRun (k : Nat) (s t : State) : Prop :=
  runSteps k s = .next t ∧ ∀ j, j < k → ∃ u, runSteps j s = .next u ∧ busyFlag u = true

/-- R30: a busy phase. -/
theorem busyFlag_of_eq {s : State} {p : Phase} (hp : s.PHASE = p) (h : phaseBusy p = true) : busyFlag s = true :=
  (congrArg phaseBusy hp).trans h

/-- A turn of a busy CORE with a silent host. -/
theorem BusyRun.one {s t : State} (silent : s.inputs = []) (busy : busyFlag s = true) (h : coreStep s = .next t) :
    BusyRun 1 s t := by
  refine ⟨runSteps_one ((step_silent silent).trans h), fun j hj => ⟨s, ?_, busy⟩⟩
  obtain rfl : j = 0 := Nat.lt_one_iff.mp hj
  rfl

/-- One busy run after another. -/
theorem BusyRun.trans {a b : Nat} {s t u : State} (h : BusyRun a s t) (h' : BusyRun b t u) : BusyRun (a + b) s u := by
  refine ⟨(runSteps_add b h.1).trans h'.1, fun j hj => ?_⟩
  rcases Nat.lt_or_ge j a with before | after
  · exact h.2 j before
  · obtain ⟨k, rfl⟩ := Nat.exists_eq_add_of_le after
    rw [runSteps_add k h.1]
    exact h'.2 k (by omega)

/-- The length of a run, written another way. -/
theorem BusyRun.of_eq {a b : Nat} {s t : State} (h : BusyRun a s t) (length : a = b) : BusyRun b s t := length ▸ h

/-- The host stays silent where the inputs stay. -/
theorem silent_of_sameBut {l : List Field} {s t : State} (silent : s.inputs = []) (frame : SameBut l s t)
    (kept : .inputs ∉ l) : t.inputs = [] :=
  (frame .inputs kept).trans silent

/-! ## The scheduler -/

/-- R143: EXPAND from `J` on completes the schedule, in `64 - J` turns. -/
theorem busyRun_expand {b : Vector Word 16} (n : Nat) {s : State} (hp : s.PHASE = .expand) (silent : s.inputs = [])
    (hj : 16 ≤ s.J.toNat) (count : s.J.toNat + (n + 1) = 64)
    (agree : ∀ t : Fin 64, t.val < s.J.toNat → s.W[t] = (expand b)[t]) :
    ∃ t, BusyRun (n + 1) s t ∧ t.PHASE = .ldwv ∧ t.W = expand b ∧ SameBut [.W, .J, .PHASE] s t := by
  have busy := busyFlag_of_eq hp rfl
  induction n generalizing s with
  | zero =>
    have agrees := expandSchedule_agrees (isSchedule_expand b) hj agree
    have turn := coreStep_expand hp
    rw [if_neg (by omega)] at turn
    refine ⟨_, .one silent busy turn, rfl, Vector.ext fun i hi => ?_, (sameBut_expand_last s _ _).mono (by decide)⟩
    have word := agrees ⟨i, hi⟩ (show i ≤ s.J.toNat by omega)
    rwa [Fin.getElem_fin, Fin.getElem_fin] at word
  | succ n ih =>
    have below : s.J.toNat < 63 := by omega
    have succ := toNat_succ_of_lt below
    have agrees := expandSchedule_agrees (isSchedule_expand b) hj agree
    have turn := coreStep_expand hp
    rw [if_pos below] at turn
    have frame : SameBut [.W, .J, .PHASE] s ((s.setW (expandSchedule s.W s.J)).setJ (s.J + 1#6)) :=
      (sameBut_expand_next s _ _).mono (by decide)
    obtain ⟨t, run, phase, schedule, frame'⟩ := ih (s := (s.setW (expandSchedule s.W s.J)).setJ (s.J + 1#6)) hp silent
      (by rw [State.setJ_J]; omega) (by rw [State.setJ_J]; omega)
      (fun i hi => agrees i (by rw [State.setJ_J] at hi; omega)) busy
    exact ⟨t, ((BusyRun.one silent busy turn).trans run).of_eq (by omega), phase, schedule, frame.trans frame'⟩

/-- R144: WCOPY and EXPAND compute the schedule of the block register. -/
theorem busyRun_schedule {s : State} (hp : s.PHASE = .wcopy) (silent : s.inputs = []) :
    ∃ t, BusyRun 49 s t ∧ t.PHASE = .ldwv ∧ t.W = expand s.B ∧ SameBut [.W, .J, .PHASE] s t := by
  have busy := busyFlag_of_eq hp rfl
  obtain ⟨t, run, phase, schedule, frame⟩ := busyRun_expand (b := s.B) 47
    (s := ((s.setW (copyBlock s.B s.W)).setJ 16#6).setPHASE .expand) rfl (by simpa using silent) (by simp) (by simp)
    (by simpa using copyBlock_agrees s.B s.W)
  exact ⟨t, (BusyRun.one silent busy (coreStep_wcopy hp)).trans run, phase, schedule,
    (sameBut_wcopy_writes s _ _ _).trans frame⟩

/-- Settles O54: what the run computes is `expand` of the block, which is a schedule of it. -/
theorem schedulerComputesExpand : Obligations.SchedulerComputesExpand := by
  intro s hp silent
  obtain ⟨t, run, phase, schedule, frame⟩ := busyRun_schedule hp silent
  exact ⟨t, run.1, phase, schedule ▸ isSchedule_expand s.B, frame⟩

/-! ## The rounds -/

/-- R165: ROUND from `J` on completes the 64 rounds, in `64 - J` turns. -/
theorem busyRun_round (n : Nat) {s : State} (hp : s.PHASE = .round) (silent : s.inputs = [])
    (count : s.J.toNat + (n + 1) = 64) (vars : s.V = roundsFrom s.H s.W s.J.toNat) :
    ∃ t, BusyRun (n + 1) s t ∧ t.PHASE = .ffwd ∧ t.V = roundsFrom s.H s.W 64 ∧ SameBut [.V, .J, .PHASE] s t := by
  have busy := busyFlag_of_eq hp rfl
  induction n generalizing s with
  | zero =>
    have more : roundAt s.V s.W s.J = roundsFrom s.H s.W (s.J.toNat + 1) := by rw [vars, roundsFrom_succ]
    have turn := coreStep_round hp
    rw [if_neg (by omega)] at turn
    exact ⟨_, .one silent busy turn, rfl, more.trans (congrArg (roundsFrom s.H s.W) count),
      (sameBut_round_last s _ _).mono (by decide)⟩
  | succ n ih =>
    have below : s.J.toNat < 63 := by omega
    have succ := toNat_succ_of_lt below
    have turn := coreStep_round hp
    rw [if_pos below] at turn
    have frame : SameBut [.V, .J, .PHASE] s ((s.setV (roundAt s.V s.W s.J)).setJ (s.J + 1#6)) :=
      (sameBut_round_next s _ _).mono (by decide)
    have vars' : roundAt s.V s.W s.J = roundsFrom s.H s.W (s.J + 1#6).toNat := by
      rw [vars, roundsFrom_succ, succ]
    obtain ⟨t, run, phase, whole, frame'⟩ := ih (s := (s.setV (roundAt s.V s.W s.J)).setJ (s.J + 1#6)) hp silent
      (by rw [State.setJ_J]; omega) vars' busy
    exact ⟨t, ((BusyRun.one silent busy turn).trans run).of_eq (by omega), phase, whole, frame.trans frame'⟩

/-- R167: LDWV, the rounds and FFWD compress the schedule into the hash state. -/
theorem busyRun_compress {s : State} (hp : s.PHASE = .ldwv) (silent : s.inputs = []) :
    ∃ t, BusyRun 66 s t ∧ t.H = compress s.H s.W ∧ t.BLK = s.BLK + 1#64 ∧ t.PHASE = phaseAfterBlock s.BLK s.NBLK ∧
      SameBut [.H, .V, .J, .BLK, .PHASE] s t := by
  have busy := busyFlag_of_eq hp rfl
  obtain ⟨u, rounds, phase, vars, frame⟩ := busyRun_round 63 (s := ((s.setV s.H).setJ 0#6).setPHASE .round) rfl silent
    rfl rfl
  have before : SameBut [.V, .J, .PHASE] s u := (sameBut_ldwv_writes s s.H 0#6 .round).trans frame
  have hash : u.H = s.H := before .H (by decide)
  have blk : u.BLK = s.BLK := before .BLK (by decide)
  have nblk : u.NBLK = s.NBLK := before .NBLK (by decide)
  have final := coreStep_ffwd phase
  rw [hash, blk, nblk] at final
  have busy' := busyFlag_of_eq phase rfl
  refine ⟨_, ((BusyRun.one silent busy (coreStep_ldwv hp)).trans rounds).trans
    (.one (silent_of_sameBut silent before (by decide)) busy' final), ?_, rfl, rfl, ?_⟩
  · simp only [State.setPHASE_H, State.setBLK_H, State.setH_H, vars]
    rfl
  · exact SameBut.trans (before.mono (by decide)) ((sameBut_ffwd_writes u _ _ _).mono (by decide))

/-- Settles O56: the run above, with `BLK + 1` where its 64 bits hold the sum. -/
theorem roundsComputeCompress : Obligations.RoundsComputeCompress := by
  intro s hp silent
  obtain ⟨t, run, hash, blk, _, frame⟩ := busyRun_compress hp silent
  exact ⟨t, run.1, hash, fun fits => blk ▸ BitVec.toNat_add_of_lt fits, frame⟩

/-! ## A block, and all blocks -/

/-- The message in memory depends on `LEN` and the reads of message memory only. -/
theorem HoldsMessage.of_sameBut {m : List Byte} {l : List Field} {s t : State} (h : HoldsMessage m s)
    (frame : SameBut l s t) (len : .LEN ∉ l) (msg : .MSG ∉ l) : HoldsMessage m t :=
  ⟨(congrArg BitVec.toNat (frame .LEN len)).trans h.1, fun i => (frame .MSG msg i).trans (h.2 i)⟩

/-- R211: from PAD on CORE takes 116 turns to process a block of `m`. -/
theorem busyRun_block {m : List Byte} {s : State} (hp : s.PHASE = .pad) (silent : s.inputs = [])
    (holds : HoldsMessage m s) (blkBelow : s.BLK.toNat < s.NBLK.toNat) (nblkIs : s.NBLK.toNat = nblocks m.length)
    (hash : s.H = hashBlocks (padMessage m) s.BLK.toNat) :
    ∃ t, BusyRun 116 s t ∧ t.H = hashBlocks (padMessage m) (s.BLK.toNat + 1) ∧ t.BLK.toNat = s.BLK.toNat + 1 ∧
      t.PHASE = phaseAfterBlock s.BLK s.NBLK ∧ SameBut [.H, .V, .W, .B, .J, .BLK, .PHASE] s t := by
  have busy := busyFlag_of_eq hp rfl
  have pad := (coreStep_pad hp).trans (exec_pad_of_holdsMessage holds blkBelow nblkIs)
  have assembled := sameBut_pad_writes s (blockOf (padMessage m) s.BLK.toNat) .wcopy
  obtain ⟨u, schedule, phase, words, scheduled⟩ := busyRun_schedule
    (s := (s.setB (blockOf (padMessage m) s.BLK.toNat)).setPHASE .wcopy) rfl (by simpa using silent)
  have before : SameBut [.W, .B, .J, .PHASE] s u := (assembled.mono (by decide)).trans (scheduled.mono (by decide))
  obtain ⟨t, rounds, compressed, blk, phase', frame⟩ := busyRun_compress phase
    (silent_of_sameBut silent before (by decide))
  have sameH : u.H = s.H := before .H (by decide)
  have sameBLK : u.BLK = s.BLK := before .BLK (by decide)
  have sameNBLK : u.NBLK = s.NBLK := before .NBLK (by decide)
  refine ⟨t, ((BusyRun.one silent busy pad).trans schedule).trans rounds, ?hash, ?blk, ?phase, ?frame⟩
  case hash => rw [compressed, sameH, words, hash, hashBlocks, State.setPHASE_B, State.setB_B]
  case blk =>
    rw [blk, sameBLK]
    exact BitVec.toNat_add_of_lt (lt_of_le_of_lt blkBelow s.NBLK.isLt)
  case phase => rw [phase', sameBLK, sameNBLK]
  case frame => exact (before.mono (by decide)).trans (frame.mono (by decide))

/-- R211: from PAD on CORE takes 116 turns for each block that is left. -/
theorem busyRun_blocks {m : List Byte} (n : Nat) {s : State} (hp : s.PHASE = .pad) (silent : s.inputs = [])
    (holds : HoldsMessage m s) (count : s.BLK.toNat + (n + 1) = s.NBLK.toNat)
    (nblkIs : s.NBLK.toNat = nblocks m.length) (hash : s.H = hashBlocks (padMessage m) s.BLK.toNat) :
    ∃ t, BusyRun (116 * (n + 1)) s t ∧ t.PHASE = .render ∧ t.inputs = [] ∧
      t.H = hashBlocks (padMessage m) (nblocks m.length) := by
  induction n generalizing s with
  | zero =>
    obtain ⟨t, run, hash', blk, phase, frame⟩ := busyRun_block hp silent holds (by omega) nblkIs hash
    rw [phaseAfterBlock_of_le (by omega)] at phase
    rw [show s.BLK.toNat + 1 = nblocks m.length by omega] at hash'
    exact ⟨t, run, phase, silent_of_sameBut silent frame (by decide), hash'⟩
  | succ n ih =>
    obtain ⟨u, run, hash', blk, phase, frame⟩ := busyRun_block hp silent holds (by omega) nblkIs hash
    rw [phaseAfterBlock_of_lt (by omega)] at phase
    have nblk : u.NBLK = s.NBLK := frame .NBLK (by decide)
    obtain ⟨t, run', final⟩ := ih phase (silent_of_sameBut silent frame (by decide))
      (holds.of_sameBut frame (by decide) (by decide)) (by rw [nblk]; omega) (by rw [nblk]; exact nblkIs)
      (by rw [blk]; exact hash')
    exact ⟨t, (run.trans run').of_eq (by omega), final⟩

/-- R210, R211: from INIT on CORE is busy for `2 + 116 * NBLK` turns, and then done with the digest of `m`. -/
theorem busyRun_digest {m : List Byte} {s : State} (hp : s.PHASE = .init) (silent : s.inputs = [])
    (holds : HoldsMessage m s) :
    ∃ t, BusyRun (2 + 116 * nblocks m.length) s t ∧ t.PHASE = .done ∧ t.DIGEST = digest m := by
  have busy := busyFlag_of_eq hp rfl
  have positive := one_le_nblocks m.length
  have blocks : (BitVec.ofNat 64 (nblocks s.LEN.toNat)).toNat = nblocks m.length :=
    (toNat_ofNat_nblocks s.LEN).trans (congrArg nblocks holds.1)
  have count : (0#64).toNat + (nblocks m.length - 1 + 1) = (BitVec.ofNat 64 (nblocks s.LEN.toNat)).toNat := by
    rw [blocks, Nat.sub_add_cancel positive]
    exact Nat.zero_add _
  obtain ⟨u, run, phase, silent', hash⟩ := busyRun_blocks (m := m) (nblocks m.length - 1)
    (s := (((s.setH IV).setNBLK (BitVec.ofNat 64 (nblocks s.LEN.toNat))).setBLK 0#64).setPHASE .pad) rfl silent
    (holds.of_sameBut (sameBut_init_writes s _ _ _ _) (by decide) (by decide))
    count blocks rfl
  have busy' := busyFlag_of_eq phase rfl
  exact ⟨_, (((BusyRun.one silent busy (coreStep_init hp)).trans run).trans
    (.one silent' busy' (coreStep_render phase))).of_eq (by omega), rfl, congrArg render hash⟩

/-- Settles O57: the run above, and its busy states. -/
theorem coreComputesDigest : Obligations.CoreComputesDigest := by
  intro m s hp silent holds
  obtain ⟨t, run, phase, result⟩ := busyRun_digest hp silent holds
  exact ⟨⟨t, run.1, phase, result⟩, run.2⟩

end Sys2Proof.Machine
end

section
/-! PROOFS. The host's programs (spec/30_encoding.md R99, spec/45_host_commands.md R231): WAIT, and the digest
transaction under every schedule of CORE's turns. -/

namespace Sys2Proof.Machine

/-! ## One line of a program -/

/-- R90: a host command is encoded as a command word. -/
theorem exists_encode_eq_command {i : Instr} (h : i.isCommand = true) : ∃ w, encode i = .command w := by
  cases i with
  | setlen | wrmsg | start | rdstat | rddig => exact ⟨_, rfl⟩
  | _ => cases h

/-- R69, R225: a line of a program is CORE's turns, as a silent run, and then its command; or a turn faults. -/
theorem issueAfter_command (turns : Nat) {op : HostOp} (s : State) (h : op.instr.isCommand = true) :
    (∃ u, runSteps turns (s.setInputs []) = .next u ∧ u.responses = s.responses ∧
      issueAfter turns op s = exec op.instr u) ∨
    (∃ f, runSteps turns (s.setInputs []) = .fault f ∧ issueAfter turns op s = .fault f) := by
  obtain ⟨w, encoded⟩ := exists_encode_eq_command h
  rcases issueAfter_cases turns s encoded (decodeInvertsEncode _) with ⟨u, run, _, responses, outcome⟩ | stopped
  · exact .inl ⟨u, run, responses, outcome⟩
  · exact .inr stopped

/-- R207, R208: in a rest phase CORE's turns change nothing. -/
theorem runSteps_rest {s : State} (silent : s.inputs = []) (h : s.PHASE = .idle ∨ s.PHASE = .done) (n : Nat) :
    runSteps n s = .next s := by
  induction n with
  | zero => rfl
  | succ n ih => rw [runSteps_next ((step_silent silent).trans (coreStep_rest h)), ih]

/-- R207, R208: with `BUSY = 0` a line is its command, whatever CORE's turns before it. -/
theorem issueAfter_of_free {op : HostOp} {s : State} (h : op.instr.isCommand = true) (free : busyFlag s = false)
    (turns : Nat) : issueAfter turns op s = exec op.instr (s.setInputs []) := by
  have rests : runSteps turns (s.setInputs []) = .next (s.setInputs []) :=
    runSteps_rest (s := s.setInputs []) rfl ((busyFlag_eq_false s).mp free) turns
  rcases issueAfter_command turns s h with ⟨u, run, _, outcome⟩ | ⟨f, run, _⟩
  · rw [outcome, eq_of_next rests run]
  · cases rests.symm.trans run

/-! ## WAIT -/

/-- R229: the response to a poll while `DONE = 0`. -/
theorem pollResponse_of_not_done {u : State} (h : doneFlag u = false) :
    RspCode.ok.bits ++ statusByte u = (0x000#12 : Response) ∨
      RspCode.ok.bits ++ statusByte u = (0x001#12 : Response) := by
  rcases statusByte_cases u with ⟨_, _, status⟩ | ⟨_, _, _, status⟩ | ⟨hp, _, _⟩
  · exact .inl (by rw [status]; rfl)
  · exact .inr (by rw [status]; rfl)
  · exact absurd ((doneFlag_eq_true u).mpr hp) (by simp [h])

/-- R229: the response to a poll with `BUSY = 1`. -/
theorem pollResponse_of_busy {u : State} (h : busyFlag u = true) :
    RspCode.ok.bits ++ statusByte u = (0x001#12 : Response) := by
  rw [(statusByte_values u).2.1.mpr h]
  rfl

/-- R229: the response to a poll with `DONE = 1`. -/
theorem pollResponse_of_done {u : State} (h : u.PHASE = .done) :
    RspCode.ok.bits ++ statusByte u = (0x002#12 : Response) := by
  rw [(statusByte_values u).2.2.mpr h]
  rfl

/-- R99: one poll of WAIT, in the state CORE's turns have reached: `DONE` ends WAIT, and else it is still to end. -/
theorem runHost_wait_of_next {n : Nat} {turns : List Nat} {ops : List HostOp} {s u : State}
    (poll : issueAfter n wait s = .next (respond .ok (statusByte u) u)) :
    runHost (n :: turns) (wait :: ops) s =
      runHost turns (if doneFlag u = true then ops else wait :: ops) (respond .ok (statusByte u) u) := by
  rw [runHost_next poll, wait, nextOps, sawDone_rdstat]

/-- Settles O58: each poll shows `DONE` and is the last, or does not and is one of the earlier responses. -/
theorem waitPollsUntilDone : Obligations.WaitPollsUntilDone := by
  intro turns
  induction turns with
  | nil =>
    refine fun s => ⟨fun t h => (nomatch h), fun ops t h => ?_⟩
    obtain ⟨rfl, rfl⟩ := HostRun.pending.inj h
    exact ⟨[], (List.append_nil _).symm, rfl, by simp, rfl⟩
  | cons n turns ih =>
    intro s
    rcases issueAfter_command n (op := wait) s rfl with ⟨u, _, responses, poll⟩ | ⟨f, _, fault⟩
    · rw [runHost_wait_of_next poll]
      cases flag : doneFlag u with
      | true =>
        have phase : u.PHASE = .done := (doneFlag_eq_true u).mp flag
        rw [if_pos rfl, runHost_nil]
        refine ⟨fun t h => ?_, fun ops t h => (nomatch h)⟩
        obtain rfl := HostRun.finished.inj h
        refine ⟨[], ?_, Nat.zero_lt_succ _, by simp, phase⟩
        rw [respond_responses, responses, pollResponse_of_done phase, List.append_nil]
      | false =>
        have poll := pollResponse_of_not_done flag
        rw [if_neg (by simp)]
        obtain ⟨finished, pending⟩ := ih (respond .ok (statusByte u) u)
        rw [respond_responses, responses] at finished pending
        refine ⟨fun t h => ?_, fun ops t h => ?_⟩
        · obtain ⟨earlier, answers, count, notDone, phase⟩ := finished t h
          refine ⟨(RspCode.ok.bits ++ statusByte u) :: earlier, by simpa using answers, by simpa using count, ?_, phase⟩
          exact List.forall_mem_cons.mpr ⟨poll, notDone⟩
        · obtain ⟨earlier, answers, count, notDone, left⟩ := pending ops t h
          refine ⟨(RspCode.ok.bits ++ statusByte u) :: earlier, by simpa using answers, by simpa using count, ?_, left⟩
          exact List.forall_mem_cons.mpr ⟨poll, notDone⟩
    · have stopped : runHost (n :: turns) [wait] s = .stopped f := by simp only [runHost, fault]
      rw [stopped]
      exact ⟨fun t h => (nomatch h), fun ops t h => (nomatch h)⟩

/-! ## A computation that is polled -/

/-- R206: each transition is what CORE's turn does in its state. -/
theorem CoreTurn.coreStep_eq {s t : State} (turn : CoreTurn s t) : coreStep s = .next t := by
  cases turn with
  | rest hp => exact coreStep_rest hp
  | init hp => exact coreStep_init hp
  | pad b hp block => exact (coreStep_pad hp).trans (execPad_of_ok block)
  | wcopy hp => exact coreStep_wcopy hp
  | expandNext hp below => rw [coreStep_expand hp, if_pos below]
  | expandLast hp last => rw [coreStep_expand hp, if_neg (by omega)]
  | ldwv hp => exact coreStep_ldwv hp
  | roundNext hp below => rw [coreStep_round hp, if_pos below]
  | roundLast hp last => rw [coreStep_round hp, if_neg (by omega)]
  | ffwdNext hp another => rw [coreStep_ffwd hp, phaseAfterBlock_of_lt another]
  | ffwdLast hp last => rw [coreStep_ffwd hp, phaseAfterBlock_of_le last]
  | render hp => exact coreStep_render hp

/-- R93: a turn of CORE neither reads nor changes the responses given. -/
theorem CoreTurn.setResponses {s t : State} (turn : CoreTurn s t) (x : List Response) :
    CoreTurn (s.setResponses x) (t.setResponses x) := by
  cases turn with
  | rest hp => exact .rest hp
  | init hp => exact .init hp
  | pad b hp block => exact .pad b hp ((padBlock_congr rfl rfl rfl fun _ _ _ _ => rfl).trans block)
  | wcopy hp => exact .wcopy hp
  | expandNext hp below => exact .expandNext hp below
  | expandLast hp last => exact .expandLast hp last
  | ldwv hp => exact .ldwv hp
  | roundNext hp below => exact .roundNext hp below
  | roundLast hp last => exact .roundLast hp last
  | ffwdNext hp another => exact .ffwdNext hp another
  | ffwdLast hp last => exact .ffwdLast hp last
  | render hp => exact .render hp

/-- R93: with a silent host CORE runs alike, whatever responses have been given. -/
theorem runSteps_setResponses {n : Nat} {s t : State} (silent : s.inputs = []) (h : runSteps n s = .next t)
    (x : List Response) : runSteps n (s.setResponses x) = .next (t.setResponses x) := by
  induction n generalizing s with
  | zero => exact congrArg (Host.Outcome.next <| State.setResponses · x) (Host.Outcome.next.inj h)
  | succ n ih =>
    have silent' : (s.setResponses x).inputs = [] := silent
    rcases coreStep_cases s with ⟨u, next, turn⟩ | ⟨f, fault, _⟩
    · obtain ⟨_, _, _, inputs⟩ := turn.keeps_message
      rw [runSteps_next ((step_silent silent).trans next)] at h
      rw [runSteps_next ((step_silent silent').trans (turn.setResponses x).coreStep_eq)]
      exact ih (inputs.trans silent) h
    · simp [runSteps, step_silent silent, fault] at h

/-- A silent run leaves the host silent. -/
theorem runSteps_silent {n : Nat} {s u : State} (silent : s.inputs = []) (h : runSteps n s = .next u) :
    u.inputs = [] := by
  rcases runSteps_turns n [] silent with ⟨v, run, silent', _⟩ | ⟨f, run, _⟩
  · rwa [eq_of_next run h]
  · cases run.symm.trans h

/-- R210: with a silent host CORE is busy for `k` turns from `b` on, and from then on done with the digest of `m`. -/
structure DigestAfter (m : List Byte) (k : Nat) (b : State) : Prop where
  silent : b.inputs = []
  turns : ∀ n, ∃ u, runSteps n b = .next u ∧ (n < k → busyFlag u = true) ∧
    (k ≤ n → u.PHASE = .done ∧ u.DIGEST = digest m)

/-- R210, R211: so it is from INIT, with the message `m` in memory. -/
theorem digestAfter_of_init {m : List Byte} {b : State} (hp : b.PHASE = .init) (silent : b.inputs = [])
    (holds : HoldsMessage m b) : DigestAfter m (2 + 116 * nblocks m.length) b := by
  obtain ⟨t, ⟨run, busy⟩, phase, result⟩ := busyRun_digest hp silent holds
  refine ⟨silent, fun n => ?_⟩
  rcases Nat.lt_or_ge n (2 + 116 * nblocks m.length) with before | after
  · obtain ⟨u, runs, flag⟩ := busy n before
    exact ⟨u, runs, fun _ => flag, fun h => absurd before (Nat.not_lt.mpr h)⟩
  · obtain ⟨k, rfl⟩ := Nat.exists_eq_add_of_le after
    refine ⟨t, (runSteps_add k run).trans (runSteps_rest (runSteps_silent silent run) (.inr phase) k), fun h => ?_,
      fun _ => ⟨phase, result⟩⟩
    omega

/-- R99, R210: WAIT against a computation that has had `k` turns: it polls `busy` times while CORE is busy and once more,
or the schedule ends while CORE is still busy. -/
theorem runHost_wait {m : List Byte} {total : Nat} {b : State} (computation : DigestAfter m total b)
    (ops : List HostOp) (turns : List Nat) {k : Nat} {u : State} (r : List Response) (h : runSteps k b = .next u) :
    (∃ busy v, busy < turns.length ∧ (busy ≠ 0 → k + (turns.take busy).sum < total) ∧
      runHost turns (wait :: ops) (u.setResponses r) = runHost (turns.drop (busy + 1)) ops v ∧
      v.responses = r ++ (List.replicate busy 0x001#12 ++ [0x002#12]) ∧ v.PHASE = .done ∧ v.DIGEST = digest m) ∨
    ((turns ≠ [] → k + turns.sum < total) ∧
      ∃ v, runHost turns (wait :: ops) (u.setResponses r) = .pending (wait :: ops) v) := by
  induction turns generalizing k u r with
  | nil => exact .inr ⟨fun h => absurd rfl h, _, rfl⟩
  | cons n turns ih =>
    have silent : u.inputs = [] := runSteps_silent computation.silent h
    obtain ⟨u', run, busy, done⟩ := computation.turns (k + n)
    have reached : runSteps n ((u.setResponses r).setInputs []) = .next (u'.setResponses r) := by
      rw [show (u.setResponses r).setInputs [] = u.setResponses r by rw [← silent]; rfl]
      exact runSteps_setResponses silent ((runSteps_add n h).symm.trans run) r
    have poll : issueAfter n wait (u.setResponses r) =
        .next (respond .ok (statusByte (u'.setResponses r)) (u'.setResponses r)) := by
      rcases issueAfter_command n (op := wait) (u.setResponses r) rfl with ⟨v, run', _, outcome⟩ | ⟨f, run', _⟩
      · rw [outcome, eq_of_next reached run']
        rfl
      · cases reached.symm.trans run'
    rw [runHost_wait_of_next poll]
    rcases Nat.lt_or_ge (k + n) total with before | after
    · have flag : busyFlag (u'.setResponses r) = true := busy before
      have unfinished : doneFlag (u'.setResponses r) ≠ true := fun finished =>
        not_rest_of_busy flag (.inr ((doneFlag_eq_true _).mp finished))
      have answered : respond .ok (statusByte (u'.setResponses r)) (u'.setResponses r) =
          u'.setResponses (r ++ [0x001#12]) :=
        congrArg (fun x => u'.setResponses (r ++ [x])) (pollResponse_of_busy flag)
      rw [if_neg unfinished, answered]
      rcases ih (r ++ [0x001#12]) run with ⟨polls, v, count, early, outcome, responses, result⟩ | ⟨early, v, outcome⟩
      · refine .inl ⟨polls + 1, v, Nat.succ_lt_succ count, fun _ => ?_, outcome, ?_, result⟩
        · rw [List.take_succ_cons, List.sum_cons, ← Nat.add_assoc]
          by_cases first : polls = 0
          · simpa [first] using before
          · exact early first
        · rw [responses, List.replicate_succ, List.append_assoc]
          rfl
      · refine .inr ⟨fun _ => ?_, v, outcome⟩
        rw [List.sum_cons, ← Nat.add_assoc]
        by_cases last : turns = []
        · simpa [last] using before
        · exact early last
    · obtain ⟨phase, result⟩ := done after
      rw [if_pos ((doneFlag_eq_true (u'.setResponses r)).mpr phase)]
      refine .inl ⟨0, _, Nat.zero_lt_succ _, fun h => absurd rfl h, rfl, ?_, phase, result⟩
      exact congrArg (r ++ [·]) (pollResponse_of_done (u := u'.setResponses r) phase)

/-! ## Commands that are accepted under every schedule -/

/-- The commands lead from one state to the other, whatever CORE's turns are before each. -/
inductive Issues : List Instr → State → State → Prop where
  | nil (s : State) : Issues [] s s
  | cons {i : Instr} {is : List Instr} {s t u : State} (first : ∀ n, issueAfter n (.once i) s = .next t)
      (others : Issues is t u) : Issues (i :: is) s u

/-- One command after others. -/
theorem Issues.concat {is : List Instr} {i : Instr} {s t u : State} (h : Issues is s t)
    (last : ∀ n, issueAfter n (.once i) t = .next u) : Issues (is ++ [i]) s u := by
  induction h with
  | nil s => exact .cons last (.nil u)
  | cons first _ ih => exact .cons first (ih last)

/-- A program that starts with these commands: they are all issued, or the schedule ends before. -/
theorem runHost_of_issues {is : List Instr} {s u : State} (h : Issues is s u) (ops : List HostOp) (turns : List Nat) :
    (is.length ≤ turns.length ∧
      runHost turns (is.map .once ++ ops) s = runHost (turns.drop is.length) ops u) ∨
    (turns.length < is.length ∧ ∃ left v, runHost turns (is.map .once ++ ops) s = .pending left v) := by
  induction h generalizing turns with
  | nil s => exact .inl ⟨Nat.zero_le _, rfl⟩
  | @cons i is s t u first others ih =>
    cases turns with
    | nil => exact .inr ⟨Nat.zero_lt_succ _, _, _, rfl⟩
    | cons n turns =>
      have issued : runHost (n :: turns) ((i :: is).map .once ++ ops) s = runHost turns (is.map .once ++ ops) t :=
        runHost_next (first n)
      rw [issued]
      rcases ih turns with ⟨enough, outcome⟩ | ⟨short, outcome⟩
      · exact .inl ⟨Nat.succ_le_succ enough, outcome⟩
      · exact .inr ⟨Nat.succ_lt_succ short, outcome⟩

/-! ## Loading the message -/

/-- R99: the WRMSG commands write byte `k` of the message at address `addr + k`. -/
theorem mem_writeBytes {i : Instr} {addr : Nat} {m : List Byte} :
    i ∈ writeBytes addr m ↔ ∃ k, ∃ h : k < m.length, i = .wrmsg (hostArg (addr + k)) m[k] := by
  induction m generalizing addr with
  | nil => simp [writeBytes]
  | cons b m ih =>
    rw [writeBytes, List.mem_cons, ih]
    constructor
    · rintro (rfl | ⟨k, h, rfl⟩)
      · exact ⟨0, by simp, rfl⟩
      · exact ⟨k + 1, by simpa using h, by rw [Nat.add_right_comm, Nat.add_assoc]; rfl⟩
    · rintro ⟨k, h, rfl⟩
      cases k with
      | zero => exact .inl rfl
      | succ k => exact .inr ⟨k, by simpa using h, by rw [Nat.add_right_comm, Nat.add_assoc]; rfl⟩

/-- R99: the commands of LOADMSG. -/
theorem mem_loadMsg {i : Instr} {m : List Byte} :
    i ∈ loadMsg m ↔ i = .setlen (hostArg m.length) ∨ ∃ k, ∃ h : k < m.length, i = .wrmsg (hostArg k) m[k] := by
  simp [loadMsg, mem_writeBytes]

/-- R99: the number of the commands of LOADMSG. -/
theorem length_loadMsg (m : List Byte) : (loadMsg m).length = m.length + 1 := by
  have bytes : ∀ addr, (writeBytes addr m).length = m.length := by
    induction m with
    | nil => exact fun _ => rfl
    | cons b m ih => exact fun addr => congrArg (· + 1) (ih (addr + 1))
  exact congrArg (· + 1) (bytes 0)

/-- R226, R227: what a load command is to bring about holds. -/
def LoadDone (i : Instr) (s : State) : Prop :=
  match i with
  | .setlen n => s.LEN = n
  | .wrmsg addr byte => memRead .msg addr.toNat s = .ok byte
  | _ => True

/-- R231: a command of LOADMSG is accepted with `BUSY = 0`, brings about what it is to, and leaves what the others
have. -/
theorem issue_load {m : List Byte} {i : Instr} {s : State} (hi : i ∈ loadMsg m) (free : busyFlag s = false)
    (fits : m.length ≤ s.msgCap.val) :
    ∃ t, (∀ n, issueAfter n (.once i) s = .next t) ∧ t.responses = s.responses ++ [0x000#12] ∧
      busyFlag t = false ∧ t.msgCap = s.msgCap ∧ LoadDone i t ∧ ∀ j ∈ loadMsg m, LoadDone j s → LoadDone j t := by
  have capLimit := s.msgCap.isLt
  have arg : ∀ {k}, k ≤ m.length → (hostArg k).toNat = k := fun h => hostArg_toNat (by omega)
  rcases mem_loadMsg.mp hi with rfl | ⟨k, hk, rfl⟩
  · have within : (hostArg m.length).toNat ≤ (s.setInputs []).msgCap.val := (arg le_rfl).trans_le fits
    refine ⟨_, fun n => (issueAfter_of_free rfl free n).trans (exec_setlen_of_in_range free within), rfl, free, rfl,
      rfl, fun j hj done => ?_⟩
    rcases mem_loadMsg.mp hj with rfl | ⟨k, hk, rfl⟩
    · rfl
    · exact done
  · have address : (hostArg k).toNat = k := arg hk.le
    have below : (hostArg k).toNat < (s.setInputs []).msgCap.val := address.trans_lt (hk.trans_le fits)
    have written := memRead_msg_writeMsg_same m[k] below
    have accepted := exec_wrmsg_of_in_range (s := s.setInputs []) m[k] free below
    refine ⟨_, fun n => (issueAfter_of_free rfl free n).trans accepted, rfl, free, rfl, written, fun j hj done => ?_⟩
    rcases mem_loadMsg.mp hj with rfl | ⟨k', hk', rfl⟩
    · exact done
    · by_cases same : k' = k
      · subst same
        exact written
      · have other : (hostArg k').toNat ≠ (hostArg k).toNat := by rwa [arg hk'.le, address]
        exact (memRead_msg_writeMsg_other (s.setInputs []) m[k] other).trans done

/-- R231: commands of LOADMSG, in any order, are accepted with `BUSY = 0` and bring about what they are to. -/
theorem issues_load {m : List Byte} (load : List Instr) {s : State} (hl : ∀ i ∈ load, i ∈ loadMsg m)
    (free : busyFlag s = false) (fits : m.length ≤ s.msgCap.val) :
    ∃ u, Issues load s u ∧ u.responses = s.responses ++ List.replicate load.length 0x000#12 ∧ busyFlag u = false ∧
      ∀ j ∈ loadMsg m, j ∈ load ∨ LoadDone j s → LoadDone j u := by
  induction load generalizing s with
  | nil => exact ⟨s, .nil s, (List.append_nil _).symm, free, fun j _ h => h.resolve_left (by simp)⟩
  | cons i load ih =>
    obtain ⟨t, first, response, free', cap, done, keeps⟩ := issue_load (hl i (by simp)) free fits
    obtain ⟨u, others, responses, free'', all⟩ := ih (fun j hj => hl j (by simp [hj])) free' (cap ▸ fits)
    refine ⟨u, .cons first others, ?_, free'', fun j hj h => all j hj ?_⟩
    · rw [responses, response, List.append_assoc]
      rfl
    · rcases h with member | before
      · rcases List.mem_cons.mp member with rfl | later
        · exact .inr done
        · exact .inl later
      · exact .inr (keeps j hj before)

/-- R231: with all commands of LOADMSG brought about, the message is in memory. -/
theorem holdsMessage_of_loadDone {m : List Byte} {s : State} (fits : m.length < 2 ^ 64)
    (h : ∀ j ∈ loadMsg m, LoadDone j s) : HoldsMessage m s := by
  have len : s.LEN = hostArg m.length := h (.setlen _) (mem_loadMsg.mpr (.inl rfl))
  refine ⟨by rw [len, hostArg_toNat fits], fun i => ?_⟩
  have byte : memRead .msg (hostArg i.val).toNat s = .ok m[i] :=
    h (.wrmsg _ _) (mem_loadMsg.mpr (.inr ⟨i.val, i.isLt, rfl⟩))
  rwa [hostArg_toNat (i.isLt.trans fits)] at byte

/-! ## Reading the digest -/

/-- R230, R99: with `DONE = 1` the commands `RDDIG i .. RDDIG (i + n - 1)` are answered with these characters. -/
theorem issues_readDigestFrom (n : Nat) {i : Nat} {s : State} (hp : s.PHASE = .done) (hi : i + n ≤ 64) :
    ∃ u, Issues (readDigestFrom i n) s u ∧ u.PHASE = .done ∧
      u.responses = s.responses ++ ((s.DIGEST.toList.drop i).take n).map (fun c => (0#4 ++ c : Response)) := by
  induction n generalizing i s with
  | zero => exact ⟨s, .nil s, hp, by simp⟩
  | succ n ih =>
    have arg : (hostArg i).toNat = i := hostArg_toNat (by omega)
    have below : (hostArg i).toNat < 64 := by omega
    have finished : doneFlag (s.setInputs []) = true := (doneFlag_eq_true _).mpr hp
    have free : busyFlag s = false := (busyFlag_eq_false s).mpr (.inr hp)
    obtain ⟨u, others, phase, responses⟩ := ih (i := i + 1)
      (s := respond .ok s.DIGEST[(hostArg i).toNat] (s.setInputs [])) hp (by omega)
    refine ⟨u, .cons (fun turns => (issueAfter_of_free rfl free turns).trans (exec_rddig_of_in_range finished below))
      others, phase, ?_⟩
    have first : s.DIGEST.toList.drop i = s.DIGEST[i] :: s.DIGEST.toList.drop (i + 1) :=
      List.drop_eq_getElem_cons (by rw [Vector.length_toList]; omega)
    simp only [responses, first, List.take_succ_cons, List.map_cons, arg]
    exact List.append_assoc s.responses _ _

/-! ## The transaction -/

/-- R231: the state in which the transaction has ended. -/
def TransactionEnds (m : List Byte) (s t : State) : Prop :=
  ∃ busy, t.responses = s.responses ++ List.replicate (m.length + 2) 0x000#12 ++
      (List.replicate busy 0x001#12 ++ [0x002#12]) ++ (digest m).toList.map (fun c => (0#4 ++ c : Response)) ∧
    t.PHASE = .done

/-- R231: the schedule gives CORE the turns of the computation before the polls, and has entries for the other
commands. -/
def LongEnough (m : List Byte) (turns : List Nat) : Prop :=
  ∃ first polls last : List Nat, turns = first ++ polls ++ last ∧ first.length = m.length + 2 ∧
    2 + 116 * nblocks m.length ≤ polls.sum ∧ 64 ≤ last.length

/-- R228, R231: the commands of LOADMSG in any order and START start the computation of `m`. -/
theorem issues_load_start {m : List Byte} {load : List Instr} {s : State} (free : busyFlag s = false)
    (fits : m.length ≤ s.msgCap.val) (perm : load.Perm (loadMsg m)) :
    ∃ b, Issues (load ++ [.start]) s b ∧ b.responses = s.responses ++ List.replicate (m.length + 2) 0x000#12 ∧
      DigestAfter m (2 + 116 * nblocks m.length) b := by
  have capLimit := s.msgCap.isLt
  obtain ⟨u, loads, responses, free', done⟩ := issues_load load (fun i hi => perm.mem_iff.mp hi) free fits
  have holds : HoldsMessage m u :=
    holdsMessage_of_loadDone (by omega) fun j hj => done j hj (.inl (perm.mem_iff.mpr hj))
  have starts : ∀ n, issueAfter n (.once .start) u =
      .next (respond .ok 0x00#8 ((u.setInputs []).setPHASE .init)) := fun n =>
    (issueAfter_of_free rfl free' n).trans (exec_start_of_free free')
  refine ⟨_, loads.concat starts, ?_, digestAfter_of_init rfl rfl (holdsMessage_congr holds rfl rfl rfl)⟩
  have answered : (respond .ok 0x00#8 ((u.setInputs []).setPHASE .init)).responses = u.responses ++ [0x000#12] := rfl
  rw [answered, responses, perm.length_eq, length_loadMsg, List.append_assoc, ← List.replicate_succ']

/-- R231: after the load commands and START a long schedule has the polls and the entries for the digest. -/
theorem LongEnough.drop {m : List Byte} {turns : List Nat} (h : LongEnough m turns) :
    m.length + 2 ≤ turns.length ∧ ∃ polls last, turns.drop (m.length + 2) = polls ++ last ∧
      2 + 116 * nblocks m.length ≤ polls.sum ∧ 64 ≤ last.length := by
  obtain ⟨first, polls, last, rfl, hf, hp, hl⟩ := h
  refine ⟨by simp; omega, polls, last, ?_, hp, hl⟩
  rw [List.append_assoc, ← hf, List.drop_left]

/-- R231: after the last poll a long schedule has entries for the digest. -/
theorem LongEnough.after_polls {m : List Byte} {turns : List Nat} (h : LongEnough m turns) {busy : Nat}
    (early : busy ≠ 0 → ((turns.drop (m.length + 2)).take busy).sum < 2 + 116 * nblocks m.length) :
    64 ≤ ((turns.drop (m.length + 2)).drop (busy + 1)).length := by
  obtain ⟨_, polls, last, parts, hp, hl⟩ := h.drop
  rw [parts] at early ⊢
  have nonempty : polls ≠ [] := by
    rintro rfl
    simp at hp
  have within : busy < polls.length := by
    by_contra beyond
    have positive := List.length_pos_iff.mpr nonempty
    have sum := early (by omega)
    rw [List.take_append, List.take_of_length_le (Nat.not_lt.mp beyond), List.sum_append] at sum
    omega
  rw [List.length_drop, List.length_append]
  omega

/-- R99: READDIGEST has a command for each character. -/
theorem length_readDigestFrom (i n : Nat) : (readDigestFrom i n).length = n := by
  induction n generalizing i with
  | zero => rfl
  | succ n ih => exact congrArg (· + 1) (ih (i + 1))

/-- R231: the transaction ends as the rule says, or its schedule was not long enough. -/
theorem runHost_transaction {m : List Byte} {load : List Instr} {s : State} (free : busyFlag s = false)
    (fits : m.length ≤ s.msgCap.val) (perm : load.Perm (loadMsg m)) (turns : List Nat) :
    (∃ t, runHost turns (transaction load) s = .finished t ∧ TransactionEnds m s t) ∨
    ((∃ left t, runHost turns (transaction load) s = .pending left t) ∧ ¬ LongEnough m turns) := by
  obtain ⟨b, starts, responses, computation⟩ := issues_load_start free fits perm
  have length : (load ++ [Instr.start]).length = m.length + 2 := by
    rw [List.length_append, perm.length_eq, length_loadMsg]
    rfl
  have program : transaction load = (load ++ [Instr.start]).map .once ++ (wait :: readDigest.map .once) := by
    simp [transaction]
  rw [program]
  rcases runHost_of_issues starts (wait :: readDigest.map .once) turns with ⟨_, loaded⟩ | ⟨short, left, t, outcome⟩
  · rw [loaded, length]
    rcases runHost_wait computation (readDigest.map .once) (turns.drop (m.length + 2)) b.responses (runSteps_zero b)
      with ⟨busy, v, _, early, polled, answers, phase, result⟩ | ⟨early, v, outcome⟩
    · obtain ⟨w, reads, phase', characters⟩ := issues_readDigestFrom 64 (i := 0) phase le_rfl
      have all : (v.DIGEST.toList.drop 0).take 64 = (digest m).toList := by
        rw [List.drop_zero, result]
        exact List.take_of_length_le (by simp)
      have read := runHost_of_issues reads [] ((turns.drop (m.length + 2)).drop (busy + 1))
      rw [List.append_nil, length_readDigestFrom] at read
      rw [show runHost _ _ b = _ from polled]
      rcases read with ⟨_, outcome⟩ | ⟨short, left, t, outcome⟩
      · exact .inl ⟨w, outcome.trans (runHost_nil _ _), busy, by rw [characters, all, answers, responses], phase'⟩
      · rw [Nat.zero_add] at early
        exact .inr ⟨⟨left, t, outcome⟩, fun long => absurd (long.after_polls early) (Nat.not_le.mpr short)⟩
    · refine .inr ⟨⟨_, v, outcome⟩, fun long => ?_⟩
      obtain ⟨_, polls, last, parts, hp, hl⟩ := long.drop
      rw [parts, List.sum_append] at early
      have nonempty : polls ++ last ≠ [] := List.append_ne_nil_of_right_ne_nil _ (List.length_pos_iff.mp (by omega))
      have sum := early nonempty
      omega
  · exact .inr ⟨⟨left, t, outcome⟩, fun long => absurd long.drop.1 (by omega)⟩

/-- Settles O59: a transaction that has ended has ended as the rule says, and under a long schedule it does end. -/
theorem transactionReturnsDigest : Obligations.TransactionReturnsDigest := by
  intro m load s free fits perm
  refine ⟨fun turns t finished => ?_, fun first polls last hf hp hl => ?_⟩
  · rcases runHost_transaction free fits perm turns with ⟨t', outcome, ends⟩ | ⟨⟨_, _, outcome⟩, _⟩
    · obtain rfl : t' = t := HostRun.finished.inj (outcome.symm.trans finished)
      exact ends
    · cases outcome.symm.trans finished
  · rcases runHost_transaction free fits perm (first ++ polls ++ last) with ⟨t, outcome, _⟩ | ⟨_, short⟩
    · exact ⟨t, outcome⟩
    · exact absurd ⟨first, polls, last, rfl, hf, hp, hl⟩ short

end Sys2Proof.Machine
end
